-- ==== Sys2Proof/Word.lean ====
section
/-! DEFINITION. The word types of NUSS-CORE (00_scope.md R11, R12): 32-bit words and bytes. All arithmetic on them is
`BitVec`'s own, which wraps modulo 2^32 and compares without sign, as R12 and R85 ask. -/

namespace Sys2Proof

/-- `u32` of 00_scope.md R11. -/
abbrev Word := BitVec 32

/-- `u8` of 00_scope.md R11. -/
abbrev Byte := BitVec 8

end Sys2Proof
end

