-- ==== Sys2Proof/Syntax.lean ====
section
/-! DEFINITION. The thirteen commands of NUSS-CORE (30_encoding.md R68), one constructor per row of
spec/opcode_table.json. Every operand but the fill byte comes from a host register (R67), so only `padTo` and `padBy`
carry one. -/

namespace Sys2Proof

/-- A command of NUSS-CORE (30_encoding.md R68). -/
inductive Instr where
  | checksum
  | hdecode
  | hencode
  | hrecomp
  | hdefault
  | hrender
  | load
  | store
  | hoverwrite
  | hprepend
  | padTo (fill : Byte)
  | padBy (fill : Byte)
  | injectAt
  deriving DecidableEq, Repr

end Sys2Proof
end

