-- ==== Sys2Proof/WellFormed.lean ====
section
/-! DEFINITION. The raw command word as its three fields (format CMD32, 30_encoding.md R66) and the three checks that
R70 and R71 put on them. An `Instr` is well formed by its types; what can be ill formed is the raw word. -/

namespace Sys2Proof

/-- The fields of format CMD32 (30_encoding.md R66): RSV `[31:16]`, FILL `[15:8]`, OPC `[7:0]`. -/
structure CmdWord where
  rsv  : BitVec 16
  fill : Byte
  opc  : Byte
  deriving DecidableEq, Repr

/-- "any word with RSV ≠ 0" is reserved (30_encoding.md R71). -/
def CmdWord.rsvZero (c : CmdWord) : Bool := c.rsv == 0#16

/-- The opcodes that name a command: 0x01 to 0x06 and 0x10 to 0x16 (30_encoding.md R70). -/
def CmdWord.opcNamed (c : CmdWord) : Bool :=
  (0x01 ≤ c.opc.toNat && c.opc.toNat ≤ 0x06) || (0x10 ≤ c.opc.toNat && c.opc.toNat ≤ 0x16)

/-- FILL must be 0 unless the opcode is PAD_TO or PAD_BY (30_encoding.md R66, R71). -/
def CmdWord.fillAllowed (c : CmdWord) : Bool :=
  c.fill == 0#8 || c.opc == 0x14#8 || c.opc == 0x15#8

/-- A word that spells a command: none of R71's reserved forms. -/
def CmdWord.WellFormed (c : CmdWord) : Bool := c.rsvZero && c.opcNamed && c.fillAllowed

end Sys2Proof
end

