-- ==== Sys2Proof/Decode.lean ====
section
/-! DEFINITION. Decoding of a command word (30_encoding.md R70), total, rejecting by name, and the encoder written from
the same tables (R66, R68). -/

namespace Sys2Proof

/-- Why a word spells no command, in the order R70 checks (30_encoding.md R70, R71). -/
inductive DecodeError where
  /-- RSV is not 0. -/
  | reservedBits
  /-- OPC is none of the thirteen opcodes. -/
  | reservedOpcode
  /-- FILL is not 0 and the command does not use it. -/
  | fillNotZero
  deriving DecidableEq, Repr

/-- The three fields of a 32-bit command word (30_encoding.md R66). -/
def CmdWord.split (w : Word) : CmdWord where
  rsv := w.extractLsb' 16 16
  fill := w.extractLsb' 8 8
  opc := w.extractLsb' 0 8

/-- The 32-bit word with the given fields (30_encoding.md R66). -/
def CmdWord.join (c : CmdWord) : Word := c.rsv ++ c.fill ++ c.opc

/-- The opcode map (30_encoding.md R68), with the fill byte for the two commands that use it. -/
def Instr.ofOpcode (opc : Byte) (fill : Byte) : Option Instr :=
  match opc.toNat with
  | 0x01 => some .checksum
  | 0x02 => some .hdecode
  | 0x03 => some .hencode
  | 0x04 => some .hrecomp
  | 0x05 => some .hdefault
  | 0x06 => some .hrender
  | 0x10 => some .load
  | 0x11 => some .store
  | 0x12 => some .hoverwrite
  | 0x13 => some .hprepend
  | 0x14 => some (.padTo fill)
  | 0x15 => some (.padBy fill)
  | 0x16 => some .injectAt
  | _ => none

/-- Whether the command takes the word's FILL field (30_encoding.md R68, column "uses FILL"). -/
def Instr.usesFill : Instr → Bool
  | .padTo _ => true
  | .padBy _ => true
  | .checksum => false
  | .hdecode => false
  | .hencode => false
  | .hrecomp => false
  | .hdefault => false
  | .hrender => false
  | .load => false
  | .store => false
  | .hoverwrite => false
  | .hprepend => false
  | .injectAt => false

/-- Decode a command word, with the checks of 30_encoding.md R70 in its order. -/
def decode (w : Word) : Except DecodeError Instr :=
  let c := CmdWord.split w
  if c.rsv ≠ 0#16 then .error .reservedBits
  else
    match Instr.ofOpcode c.opc c.fill with
    | none => .error .reservedOpcode
    | some i => if c.fill ≠ 0#8 ∧ i.usesFill = false then .error .fillNotZero else .ok i

/-- The fields of the word that spells a command (30_encoding.md R66, R68, R69). -/
def Instr.cmdWord : Instr → CmdWord
  | .checksum => { rsv := 0#16, fill := 0#8, opc := 0x01#8 }
  | .hdecode => { rsv := 0#16, fill := 0#8, opc := 0x02#8 }
  | .hencode => { rsv := 0#16, fill := 0#8, opc := 0x03#8 }
  | .hrecomp => { rsv := 0#16, fill := 0#8, opc := 0x04#8 }
  | .hdefault => { rsv := 0#16, fill := 0#8, opc := 0x05#8 }
  | .hrender => { rsv := 0#16, fill := 0#8, opc := 0x06#8 }
  | .load => { rsv := 0#16, fill := 0#8, opc := 0x10#8 }
  | .store => { rsv := 0#16, fill := 0#8, opc := 0x11#8 }
  | .hoverwrite => { rsv := 0#16, fill := 0#8, opc := 0x12#8 }
  | .hprepend => { rsv := 0#16, fill := 0#8, opc := 0x13#8 }
  | .padTo fill => { rsv := 0#16, fill := fill, opc := 0x14#8 }
  | .padBy fill => { rsv := 0#16, fill := fill, opc := 0x15#8 }
  | .injectAt => { rsv := 0#16, fill := 0#8, opc := 0x16#8 }

/-- The command word of a command (30_encoding.md R66, R69). -/
def encode (i : Instr) : Word := i.cmdWord.join

/-- What the decoder reads from an instruction whose bits are `w`, bit 0 the least significant bit of the command
word; bits at `nbits` and above are 0. A command is one 32-bit word (30_encoding.md R65), so a number that does not
fit in 32 bits is no command word. -/
def decodeTableWord (nbits w : Nat) : Option Instr :=
  let v := w % 2 ^ nbits
  if v < 2 ^ 32 then (decode (BitVec.ofNat 32 v)).toOption else none

end Sys2Proof
end

