-- ==== Sys2Proof/Config.lean ====
section
/-! DEFINITION. What an implementation fixes (the parameters of 00_scope.md R10, with their defaults) and the free
values (opaque constants: nothing in Lean can evaluate them or prove a value of them). The parameters are plain data; the
state carries one `Params` that no step writes, so that a claim about every state is a claim about every setting (DESIGN
CHOICE, notes/assumptions/6.md). -/

namespace Sys2Proof

/-- A header record with every field written: the thirteen fields of 10_state.md R32. -/
structure Header where
  cfgFlags    : Word
  clockRate   : Word
  bootAddress : Word
  luVersion   : Word
  crcHi       : Word
  crcLo       : Word
  reserved1   : BitVec 64
  title       : List Byte
  reserved2   : BitVec 56
  category    : Byte
  unique      : BitVec 16
  destination : Byte
  version     : Byte
  deriving DecidableEq, Repr

/-- What one LOAD draws from the byte source (43_image_buffer.md R103, 10_state.md R42). -/
inductive LoadDraw where
  | bytes (src : List Byte)
  | readFail
  deriving DecidableEq, Repr, Inhabited

/-- What one STORE draws (43_image_buffer.md R104): success, or a failure after which the sink holds any byte string. -/
inductive StoreDraw where
  | ok
  | writeFail (sunk : List Byte)
  deriving DecidableEq, Repr, Inhabited

namespace Config

/-- P_AUX_TIE (00_scope.md R10, 41_checksum_engine.md R83). -/
inductive AuxTie where
  | doc
  | orig
  deriving DecidableEq, Repr

/-- P_TITLE_TRUNC (00_scope.md R10, 42_header_codec.md R92). -/
inductive TitleTrunc where
  | byte
  | charBoundary
  deriving DecidableEq, Repr

/-- P_TITLE_VALID (00_scope.md R10, 42_header_codec.md R93): the default, or another predicate that an implementation
names (`Config.titleValid`, opaque). -/
inductive TitleCheck where
  | utf8
  | other
  deriving DecidableEq, Repr

/-- How the model runs a checksum (41_checksum_engine.md R89, D30): one transition, or word steps. -/
inductive Grain where
  | atomic
  | wordSteps
  deriving DecidableEq, Repr

/-- P_DEFAULTS: the six header defaults the source does not give (00_scope.md R10, 10_state.md R32). -/
structure Defaults where
  luVersion : Word := 0#32
  reserved1 : BitVec 64 := 0#64
  title     : List Byte := []
  reserved2 : BitVec 56 := 0#56
  unique    : BitVec 16 := 0#16
  version   : Byte := 0#8
  deriving DecidableEq, Repr

/-- The parameters of 00_scope.md R10, each with the default R10 gives it. -/
structure Params where
  auxTie     : AuxTie := .doc
  titleCheck : TitleCheck := .utf8
  titleTrunc : TitleTrunc := .byte
  defaults   : Defaults := {}
  injectFill : Byte := 0x00#8
  /-- P_IMG_MAX: `none` is "unbounded". -/
  imgMax     : Option Nat := none
  argBits    : Nat := 64
  /-- The model's own (DESIGN CHOICE, notes/assumptions/9.md). -/
  grain      : Grain := .atomic
  deriving DecidableEq, Repr

/-- The thirteen fields of a header record, as RTXT shows them (10_state.md R32). -/
inductive Field where
  | cfgFlags
  | clockRate
  | bootAddress
  | luVersion
  | crcHi
  | crcLo
  | reserved1
  | title
  | reserved2
  | category
  | unique
  | destination
  | version
  deriving DecidableEq, Repr

/-- What 42_header_codec.md R101 (D19) leaves open of how one field is shown. -/
structure FieldStyle where
  /-- What stands before the value on its line: a label. -/
  before  : List Byte
  /-- What stands after it. -/
  after   : List Byte
  /-- The mark before the hexadecimal digits. -/
  hexMark : List Byte
  /-- Capital digits. -/
  upper   : Bool
  /-- The least number of digits. -/
  width   : Nat
  /-- The title, reserved_2, or a character code that is no printable ASCII character. -/
  shown   : List Byte
  /-- What stands between the two codes of H_UNIQUE. -/
  between : List Byte
  /-- The second code of H_UNIQUE, where it is no printable ASCII character. -/
  second  : List Byte
  deriving DecidableEq, Repr, Inhabited

/-- What 42_header_codec.md R101 (D19) leaves open of the text of one header record. -/
structure RenderStyle where
  /-- The lines, in their order, each with the fields it shows: the checksum pair is one line or two. -/
  order   : List (List Field)
  field   : Field → FieldStyle
  /-- The line terminator. -/
  ending  : List Byte
  /-- Whether the last line has one too. -/
  endLast : Bool
  deriving Inhabited

/-- P_TITLE_VALID where it is not the default (42_header_codec.md R93). FREE VALUE: nothing constrains it
(notes/assumptions/6.md). -/
opaque titleValid : List Byte → Bool

/-- What 42_header_codec.md R101 leaves open of P_RENDER: every choice in the text of a header record. FREE VALUE
(notes/assumptions/7.md). -/
opaque renderStyle : Header → RenderStyle

/-- P_IO: what the n-th free LOAD draw gives (10_state.md R42). FREE VALUE (notes/assumptions/5.md). -/
opaque loadDraw : Nat → LoadDraw

/-- P_IO: what the n-th free STORE draw gives (43_image_buffer.md R104). FREE VALUE (notes/assumptions/5.md). -/
opaque storeDraw : Nat → StoreDraw

end Config
end Sys2Proof
end

