-- ==== Sys2Proof/Machine/State.lean ====
section
/-! DEFINITION. The state of NUSS-CORE and its HOST, as plain data, and the state after reset (10_state.md,
70_reset_and_hazards.md R124). "Unwritten" is the spec's own state of an element (10_state.md R40) and the reset value
R124 gives most of them: here it is `none`. Reading such an element is no stop of the machine: it records F_UNWRITTEN in
FAULTS, as R115 says (DEDUCED, notes/assumptions/1.md). -/

namespace Sys2Proof.Machine

/-- The fault reasons of 60_exceptions.md R115. The spec records them in FAULTS (10_state.md R41) and HOST goes on, so a
command that faults answers a next state with the mark set (DEDUCED, notes/assumptions/2.md). No meaning and no step ends
with `Outcome.fault`. -/
inductive Fault where
  /-- F_UNWRITTEN: a command, HostRead or HostReadImg read an element that holds no value. Recorded, not a stop: safe
  for every claim whose premise is that FAULTS is empty. -/
  | unwritten
  /-- F_SHORT_OVERWRITE: HOVERWRITE with IMG_LEN < 64. Recorded, not a stop: safe under the same premise. -/
  | shortOverwrite
  /-- F_LAYOUT: HENCODE built a string whose length is not 64; unreachable (42_header_codec.md R98). Safe. -/
  | layout
  deriving DecidableEq, Repr

/-- A command with no meaning in the model. -/
inductive Refusal where
  /-- Raised by the arm of a command that has no meaning yet; no arm does so now. Safe: nothing can be proved of it. The
  spec's own refusals (60_exceptions.md R116) set REFUSED in a next state instead. -/
  | notModelled (mnemonic : String)
  deriving DecidableEq, Repr

/-- The set FAULTS (10_state.md R41), by its three possible members. -/
structure FaultSet where
  unwritten      : Bool := false
  shortOverwrite : Bool := false
  layout         : Bool := false
  deriving DecidableEq, Repr

/-- The image memory IMG (20_memory.md R43): `len` is IMG_LEN, and `cells` lists, by rising address, the bytes below `len`
that are not `Memory.unlisted`. -/
structure Memory where
  len   : Nat
  cells : List Host.Cell
  deriving DecidableEq, Repr

/-- What an address below IMG_LEN that is not listed reads as (notes/assumptions/8.md). -/
def Memory.unlisted : Byte := 0x00#8

/-- The canonical form: addresses strictly rising, below IMG_LEN, and no cell equal to what an unlisted address reads
as. -/
abbrev Memory.wf (m : Memory) : Prop :=
  m.cells.Pairwise (fun x y => x.1 < y.1) ∧ ∀ c ∈ m.cells, c.1 < m.len ∧ c.2 ≠ Memory.unlisted

/-- IMG after reset: "empty (no bytes)" (70_reset_and_hazards.md R124). -/
def Memory.empty : Memory := { len := 0, cells := [] }

/-- The header record HREG: thirteen fields, "each field is written or unwritten on its own" (10_state.md R32). -/
structure HReg where
  cfgFlags    : Option Word := none
  clockRate   : Option Word := none
  bootAddress : Option Word := none
  luVersion   : Option Word := none
  crcHi       : Option Word := none
  crcLo       : Option Word := none
  reserved1   : Option (BitVec 64) := none
  title       : Option (List Byte) := none
  reserved2   : Option (BitVec 56) := none
  category    : Option Byte := none
  unique      : Option (BitVec 16) := none
  destination : Option Byte := none
  version     : Option Byte := none
  deriving DecidableEq, Repr

/-- The six checksum accumulators (10_state.md R36). -/
structure Acc where
  roll  : Word
  carry : Word
  xor   : Word
  rot   : Word
  aux   : Word
  wsum  : Word
  deriving DecidableEq, Repr

/-- The commands that run ChecksumFn (41_checksum_engine.md R89). -/
inductive RunCmd where
  | checksum
  | hrecomp
  | hdefault
  deriving DecidableEq, Repr

/-- ENG (10_state.md R38), with what exists only during a run: the issuing command, the accumulators (R36) and WPTR (R37).
Outside a run they are unwritten, so `idle` and `seed` hold none. -/
inductive Engine where
  | idle
  | seed (c : RunCmd)
  | loop (c : RunCmd) (acc : Acc) (wptr : Nat)
  | fold (c : RunCmd) (acc : Acc) (wptr : Nat)
  deriving DecidableEq, Repr

/-- A value HOST writes to, or reads from, a register: a number or a byte string (10_state.md R20, R32). -/
inductive HostVal where
  | num (n : Nat)
  | bytes (s : List Byte)
  deriving DecidableEq, Repr

/-- One step of HOST: HostWrite (10_state.md R21), HostRead (R22), HostReadImg (20_memory.md R45). Registers are given by
number. -/
inductive HostOp where
  | write (reg : Nat) (v : HostVal)
  | read (reg : Nat)
  | readImg (addr n : Nat)
  deriving DecidableEq, Repr

/-- The state. The first group is architectural (10_state.md, 20_memory.md); then the model's marks (R41), the parameters
(00_scope.md R10), and HOST's environment (R42). -/
structure State where
  /-- STATUS (R24). -/
  status   : Option Byte
  /-- ARG0 (R25), below 2^P_ARG_BITS. -/
  arg0     : Option Nat
  /-- CK_HI (R26). -/
  ckHi     : Option Word
  /-- CK_LO (R26). -/
  ckLo     : Option Word
  /-- IMG and IMG_LEN (R27, R43); `none` after a ReadError (R103). -/
  img      : Option Memory
  /-- HBUF (R28). -/
  hbuf     : Option (Vector Byte 64)
  /-- DBUF (R29). -/
  dbuf     : Option (List Byte)
  /-- RTXT (R30). -/
  rtxt     : Option (List Byte)
  /-- HREG (R32). -/
  hreg     : HReg
  /-- ENG, ACC_ROLL to ACC_WSUM, WPTR (R36 to R38). -/
  eng      : Engine
  /-- FAULTS (R41). -/
  faults   : FaultSet
  /-- REFUSED (R41). -/
  refused  : Bool
  /-- The parameters (00_scope.md R10); no step writes them. -/
  params   : Config.Params
  /-- The operations HOST has still to take (R16, R19). -/
  hostOps  : List HostOp
  /-- The values HOST has read, oldest first (R22). -/
  replies  : List HostVal
  /-- Draws of SRC that are fixed in advance (R42). -/
  srcDraws : List LoadDraw
  /-- Draws of SNK that are fixed in advance (R42). -/
  snkDraws : List StoreDraw
  /-- How many free draws have been taken: the free-value counter. -/
  ioCount  : Nat
  /-- What the byte sink SNK holds (R42). -/
  snk      : List Byte
  deriving DecidableEq, Repr

/-- The machine right after reset (70_reset_and_hazards.md R124). The environment's fields and the parameters have the
values notes/assumptions/3.md to 6.md and 9.md name. -/
def State.reset : State where
  status := none
  arg0 := none
  ckHi := none
  ckLo := none
  img := some Memory.empty
  hbuf := none
  dbuf := none
  rtxt := none
  hreg := {}
  eng := .idle
  faults := {}
  refused := false
  params := {}
  hostOps := []
  replies := []
  srcDraws := []
  snkDraws := []
  ioCount := 0
  snk := []

end Sys2Proof.Machine
end

