-- ==== Sys2Proof/Machine/Ops.lean ====
section
/-! DEFINITION. The shared operations over bytes, the image memory and the state: big-endian numbers and memory access
(00_scope.md R13), the ways a command ends (R14), and the draws of the environment (10_state.md R42). NUSS-CORE has no
trap entry and no return from one (60_exceptions.md R118, R119): what takes its place is `State.raise`. -/

namespace Sys2Proof.Machine

/-! ### Byte strings and numbers -/

/-- `BE(s)` (00_scope.md R13). -/
def be (s : List Byte) : Nat := s.foldl (fun acc b => acc * 256 + b.toNat) 0

/-- `BEbytes_n(v)` (00_scope.md R13). -/
def beBytes : Nat → Nat → List Byte
  | 0, _ => []
  | n + 1, v => beBytes n (v / 256) ++ [BitVec.ofNat 8 v]

/-! ### The image memory -/

/-- The byte at an address, in a list of cells by rising address. -/
def byteAt : List Host.Cell → Nat → Byte
  | [], _ => Memory.unlisted
  | c :: cs, a => if c.1 < a then byteAt cs a else if c.1 = a then c.2 else Memory.unlisted

/-- The byte of IMG at an address; it has a meaning for addresses below IMG_LEN only (20_memory.md R43). -/
def Memory.byte (m : Memory) (a : Nat) : Byte := byteAt m.cells a

/-- IMG with the cells below `a` passed over, for reads in rising address order. -/
def Memory.seek (m : Memory) (a : Nat) : Memory :=
  { m with cells := m.cells.dropWhile (fun c => decide (c.1 < a)) }

/-- The window word at `a`: four bytes, the most significant first (20_memory.md R48). -/
def Memory.word (m : Memory) (a : Nat) : Word :=
  BitVec.ofNat 32 (be [m.byte a, m.byte (a + 1), m.byte (a + 2), m.byte (a + 3)])

/-- The bytes read after those already read (`done`, last first). -/
def Memory.bytesLoop (m : Memory) (a : Nat) (done : List Byte) : Nat → List Byte
  | 0 => done.reverse
  | n + 1 => Memory.bytesLoop (m.seek a) (a + 1) ((m.seek a).byte a :: done) n

/-- `IMG[a..a+n)`. -/
def Memory.bytes (m : Memory) (a n : Nat) : List Byte := m.bytesLoop a [] n

/-- `MemRead(addr, n)`: "defined only when `addr + n ≤ IMG_LEN`" (00_scope.md R13). -/
def Memory.read (m : Memory) (a n : Nat) : Option (List Byte) :=
  if a + n ≤ m.len then some (m.bytes a n) else none

/-- `MemRead32(addr)` (00_scope.md R13), where it is defined. -/
def Memory.read32 (m : Memory) (a : Nat) : Option Word :=
  if a + 4 ≤ m.len then some (m.word a) else none

/-- The cells of a byte string that stands at address `a`, in canonical form. -/
def cellsOf (a : Nat) (s : List Byte) : List Host.Cell :=
  (s.zipIdx a).filterMap (fun p => if p.1 = Memory.unlisted then none else some (p.2, p.1))

/-- The image that holds exactly `s`. -/
def Memory.ofBytes (s : List Byte) : Memory := { len := s.length, cells := cellsOf 0 s }

/-- `IMG ++ s`. -/
def Memory.append (m : Memory) (s : List Byte) : Memory :=
  { len := m.len + s.length, cells := m.cells ++ cellsOf m.len s }

/-- `s ++ IMG`. -/
def Memory.prepend (m : Memory) (s : List Byte) : Memory :=
  { len := s.length + m.len, cells := cellsOf 0 s ++ m.cells.map (fun c => (c.1 + s.length, c.2)) }

/-- `MemWrite(addr, s)` (00_scope.md R13); every caller has `addr + len(s) ≤ IMG_LEN`. -/
def Memory.write (m : Memory) (a : Nat) (s : List Byte) : Memory :=
  { m with
    cells := m.cells.filter (fun c => decide (c.1 < a)) ++ cellsOf a s ++
      m.cells.filter (fun c => decide (a + s.length ≤ c.1)) }

/-- IMG with fill bytes appended until its length is `target`; unchanged where it is that long already. -/
def Memory.growTo (m : Memory) (target : Nat) (fill : Byte) : Memory :=
  m.append (List.replicate (target - m.len) fill)

/-- Whether a length is past P_IMG_MAX (20_memory.md R43). -/
def pastImgMax (p : Config.Params) (len : Nat) : Bool :=
  match p.imgMax with
  | none => false
  | some most => decide (most < len)

/-! ### How a command ends (00_scope.md R14) -/

/-- FAULTS with one more reason recorded. -/
def FaultSet.insert (fs : FaultSet) : Fault → FaultSet
  | .unwritten => { fs with unwritten := true }
  | .shortOverwrite => { fs with shortOverwrite := true }
  | .layout => { fs with layout := true }

/-- `STATUS <- code`: the end of every command that completes (10_state.md R24). -/
def State.setStatus (s : State) (code : Byte) : State := { s with status := some code }

/-- `fault F`: the command does not complete; F is recorded and nothing else changes (60_exceptions.md R115). -/
def State.fault (s : State) (f : Fault) : State := { s with faults := s.faults.insert f }

/-- `refuse`: REFUSED is set and nothing else changes (60_exceptions.md R116). -/
def State.refuse (s : State) : State := { s with refused := true }

/-- Read an element: an unwritten one faults with F_UNWRITTEN (10_state.md R40), a written one goes on with its value. -/
def State.need {α : Type} (s : State) (r : Option α) (k : α → State) : State :=
  match r with
  | none => s.fault .unwritten
  | some a => k a

/-! ### The environment's draws (10_state.md R42) -/

/-- What LOAD draws, and the state after the draw: the next draw fixed in advance, or a free one
(notes/assumptions/5.md). -/
def State.drawLoad (s : State) : LoadDraw × State :=
  match s.srcDraws with
  | d :: ds => (d, { s with srcDraws := ds })
  | [] => (Config.loadDraw s.ioCount, { s with ioCount := s.ioCount + 1 })

/-- What STORE draws, and the state after the draw (notes/assumptions/5.md). -/
def State.drawStore (s : State) : StoreDraw × State :=
  match s.snkDraws with
  | d :: ds => (d, { s with snkDraws := ds })
  | [] => (Config.storeDraw s.ioCount, { s with ioCount := s.ioCount + 1 })

end Sys2Proof.Machine
end

