-- ==== Sys2Proof/Machine/Flags.lean ====
section
/-! DEFINITION. The completion codes of STATUS (60_exceptions.md R111) and the two transient comparisons of the word step
(10_state.md R39). NUSS-CORE has no condition-code register. -/

namespace Sys2Proof.Machine

/-- The source's error taxonomy (60_exceptions.md R111). -/
inductive Err where
  | insufficientData
  | truncatedHeader
  | invalidTitleEncoding
  /-- Kept, and raised by nothing: R95 shows that no run reaches it. -/
  | sliceBoundsError
  | readError
  | writeError
  deriving DecidableEq, Repr

/-- The STATUS code of a success (60_exceptions.md R111). -/
def statusOk : Byte := 0x00#8

/-- The STATUS code of an error (60_exceptions.md R111). -/
def Err.code : Err → Byte
  | .insufficientData => 0x01#8
  | .truncatedHeader => 0x02#8
  | .invalidTitleEncoding => 0x03#8
  | .sliceBoundsError => 0x04#8
  | .readError => 0x05#8
  | .writeError => 0x06#8

/-- `STATUS <- OK`. -/
def State.ok (s : State) : State := s.setStatus statusOk

/-- `raise E`: STATUS is E's code and no other state changes (00_scope.md R14, 60_exceptions.md R113). -/
def State.raise (s : State) (e : Err) : State := s.setStatus e.code

/-- The carry test `new_sum <u ACC_ROLL` (41_checksum_engine.md R80 (b), R82). -/
def carries (newSum roll : Word) : Bool := newSum.ult roll

/-- `AuxSelect(a, w)` by P_AUX_TIE (41_checksum_engine.md R83). -/
def auxSelect (tie : Config.AuxTie) (a w : Word) : Bool :=
  match tie with
  | .doc => a.ult w
  | .orig => a.ult w || a == w

end Sys2Proof.Machine
end

