-- ==== Sys2Proof/Machine/Operands.lean ====
section
/-! DEFINITION. Operand forms (30_encoding.md R67): HREG as a whole, the header layout (42_header_codec.md R90), the
title's normalisation (R92) and validity (R93), and HBUF as an operand. ARG0, DBUF, HBUF and IMG are read with
`State.need`; the fill byte is the constructor's argument, unsigned and unextended. -/

namespace Sys2Proof.Machine

/-! ### Fixed sizes (00_scope.md R9) -/

/-- HDR_LEN. -/
def hdrLen : Nat := 64

/-- TITLE_LEN. -/
def titleLen : Nat := 20

/-- TITLE_FILL. -/
def titleFill : Byte := 0x00#8

/-! ### HREG as an operand -/

/-- HREG read as a whole: `none` when some field is unwritten (42_header_codec.md R97, D39). -/
def HReg.full (r : HReg) : Option Header := do
  let cfgFlags ← r.cfgFlags
  let clockRate ← r.clockRate
  let bootAddress ← r.bootAddress
  let luVersion ← r.luVersion
  let crcHi ← r.crcHi
  let crcLo ← r.crcLo
  let reserved1 ← r.reserved1
  let title ← r.title
  let reserved2 ← r.reserved2
  let category ← r.category
  let unique ← r.unique
  let destination ← r.destination
  let version ← r.version
  some { cfgFlags, clockRate, bootAddress, luVersion, crcHi, crcLo, reserved1, title, reserved2, category, unique,
         destination, version }

/-- HREG with every field written. -/
def HReg.ofHeader (h : Header) : HReg where
  cfgFlags := some h.cfgFlags
  clockRate := some h.clockRate
  bootAddress := some h.bootAddress
  luVersion := some h.luVersion
  crcHi := some h.crcHi
  crcLo := some h.crcLo
  reserved1 := some h.reserved1
  title := some h.title
  reserved2 := some h.reserved2
  category := some h.category
  unique := some h.unique
  destination := some h.destination
  version := some h.version

/-! ### The title (42_header_codec.md R92, R93) -/

/-- A UTF-8 continuation byte: `(x & 0xC0) = 0x80` (42_header_codec.md R92). -/
def isContinuation (b : Byte) : Bool := b &&& 0xC0#8 == 0x80#8

/-- The loop of CHAR_BOUNDARY: from `n` down to the nearest index whose byte is no continuation byte, or 0
(42_header_codec.md R92). -/
def charBoundaryCut (t : List Byte) : Nat → Nat
  | 0 => 0
  | n + 1 => if isContinuation (t.getD (n + 1) 0#8) then charBoundaryCut t n else n + 1

/-- `NormTitle(t)` (42_header_codec.md R92). -/
def normTitle (trunc : Config.TitleTrunc) (t : List Byte) : List Byte :=
  if t.length ≤ titleLen then t ++ List.replicate (titleLen - t.length) titleFill
  else
    match trunc with
    | .byte => t.take titleLen
    | .charBoundary =>
      let n := charBoundaryCut t titleLen
      t.take n ++ List.replicate (titleLen - n) titleFill

/-- The nine rows of 42_header_codec.md R93: the byte ranges of each well-formed sequence. -/
def utf8Rows : List (List (Nat × Nat)) :=
  [[(0x00, 0x7F)],
   [(0xC2, 0xDF), (0x80, 0xBF)],
   [(0xE0, 0xE0), (0xA0, 0xBF), (0x80, 0xBF)],
   [(0xE1, 0xEC), (0x80, 0xBF), (0x80, 0xBF)],
   [(0xED, 0xED), (0x80, 0x9F), (0x80, 0xBF)],
   [(0xEE, 0xEF), (0x80, 0xBF), (0x80, 0xBF)],
   [(0xF0, 0xF0), (0x90, 0xBF), (0x80, 0xBF), (0x80, 0xBF)],
   [(0xF1, 0xF3), (0x80, 0xBF), (0x80, 0xBF), (0x80, 0xBF)],
   [(0xF4, 0xF4), (0x80, 0x8F), (0x80, 0xBF), (0x80, 0xBF)]]

/-- Whether a byte lies in a range, ends included. -/
def inRange (r : Nat × Nat) (b : Byte) : Bool := decide (r.1 ≤ b.toNat) && decide (b.toNat ≤ r.2)

/-- The ranges of the bytes that must follow `b`, in the row that `b` opens; `none` when it opens none. -/
def utf8Follow (b : Byte) : List (List (Nat × Nat)) → Option (List (Nat × Nat))
  | [] => none
  | [] :: rows => utf8Follow b rows
  | (r :: rest) :: rows => if inRange r b then some rest else utf8Follow b rows

/-- Recognise well-formed UTF-8; `pending` holds the ranges the sequence that is open still asks for. -/
def utf8Go : List (Nat × Nat) → List Byte → Bool
  | [], [] => true
  | _ :: _, [] => false
  | r :: pending, b :: s => inRange r b && utf8Go pending s
  | [], b :: s =>
    match utf8Follow b utf8Rows with
    | none => false
    | some pending => utf8Go pending s

/-- Well-formed UTF-8: a concatenation of sequences of the rows of 42_header_codec.md R93. -/
def utf8Valid (s : List Byte) : Bool := utf8Go [] s

/-- P_TITLE_VALID (00_scope.md R10, 42_header_codec.md R93). -/
def titleOk (p : Config.Params) (t : List Byte) : Bool :=
  match p.titleCheck with
  | .utf8 => utf8Valid t
  | .other => Config.titleValid t

/-! ### The encoded header (42_header_codec.md R90) -/

/-- The bytes `b[off..off+n)`. -/
def slice (b : List Byte) (off n : Nat) : List Byte := (b.drop off).take n

/-- The big-endian field of `n` bytes at an offset. -/
def fieldAt (b : List Byte) (off n w : Nat) : BitVec w := BitVec.ofNat w (be (slice b off n))

/-- The header that 64 bytes encode (42_header_codec.md R90, R94). -/
def decodeHeader (b : List Byte) : Header where
  cfgFlags := fieldAt b 0x00 4 32
  clockRate := fieldAt b 0x04 4 32
  bootAddress := fieldAt b 0x08 4 32
  luVersion := fieldAt b 0x0C 4 32
  crcHi := fieldAt b 0x10 4 32
  crcLo := fieldAt b 0x14 4 32
  reserved1 := fieldAt b 0x18 8 64
  title := slice b 0x20 titleLen
  reserved2 := fieldAt b 0x34 7 56
  category := fieldAt b 0x3B 1 8
  unique := fieldAt b 0x3C 2 16
  destination := fieldAt b 0x3E 1 8
  version := fieldAt b 0x3F 1 8

/-- The bytes that encode a header (42_header_codec.md R90, R97). -/
def encodeHeader (trunc : Config.TitleTrunc) (h : Header) : List Byte :=
  beBytes 4 h.cfgFlags.toNat ++ beBytes 4 h.clockRate.toNat ++ beBytes 4 h.bootAddress.toNat ++
  beBytes 4 h.luVersion.toNat ++ beBytes 4 h.crcHi.toNat ++ beBytes 4 h.crcLo.toNat ++
  beBytes 8 h.reserved1.toNat ++ normTitle trunc h.title ++ beBytes 7 h.reserved2.toNat ++
  beBytes 1 h.category.toNat ++ beBytes 2 h.unique.toNat ++ beBytes 1 h.destination.toNat ++
  beBytes 1 h.version.toNat

/-- A byte string as HBUF's 64 bytes, where it has that length (10_state.md R28). -/
def toHbuf (s : List Byte) : Option (Vector Byte 64) :=
  if h : s.length = 64 then some ⟨s.toArray, by simpa using h⟩ else none

end Sys2Proof.Machine
end

