-- ==== Sys2Proof/Machine/Checksum.lean ====
section
/-! DEFINITION. The checksum function (41_checksum_engine.md R75 to R84) and the command CHECKSUM (R88). -/

namespace Sys2Proof.Machine

/-! ### Fixed values (00_scope.md R9) -/

/-- CK_START. -/
def ckStart : Nat := 0x1000

/-- CK_LEN. -/
def ckLen : Nat := 0x100000

/-- CK_MIN_LEN = CK_START + CK_LEN. -/
def ckMinLen : Nat := ckStart + ckLen

/-- CK_WORDS = CK_LEN / 4. -/
def ckWords : Nat := ckLen / 4

/-- INITIAL = (0x3F *32 0x5D588B65) +32 1 (41_checksum_engine.md R77). -/
def ckInitial : Word := 0x3F#32 * 0x5D588B65#32 + 1#32

/-! ### The word step -/

/-- Seeding: all six accumulators start at INITIAL (41_checksum_engine.md R77). -/
def Acc.seed : Acc where
  roll := ckInitial
  carry := ckInitial
  xor := ckInitial
  rot := ckInitial
  aux := ckInitial
  wsum := ckInitial

/-- `rot(w)`, with the special case the source asks for (41_checksum_engine.md R79). -/
def rotWord (w : Word) : Word :=
  let s := (w.extractLsb' 0 5).toNat
  if s = 0 then w <<< 0 ||| w else w <<< s ||| w >>> (32 - s)

/-- `WordStep(w)`, lines (a) to (h) of 41_checksum_engine.md R80. -/
def wordStep (tie : Config.AuxTie) (acc : Acc) (w : Word) : Acc :=
  let newSum := acc.roll + w
  let r := rotWord w
  let rot := acc.rot + r
  { roll := newSum
    carry := if carries newSum acc.roll then acc.carry + 1#32 else acc.carry
    xor := acc.xor ^^^ w
    rot := rot
    aux := if auxSelect tie acc.aux w then acc.aux ^^^ (newSum ^^^ w) else acc.aux ^^^ r
    wsum := acc.wsum + (w ^^^ rot) }

/-- The loop over `n` words from address `a`, in rising address order (41_checksum_engine.md R78). -/
def windowLoop (tie : Config.AuxTie) (m : Memory) (a : Nat) (acc : Acc) : Nat → Acc
  | 0 => acc
  | n + 1 => windowLoop tie (m.seek a) (a + 4) (wordStep tie acc ((m.seek a).word a)) n

/-- The fold into (first, second) (41_checksum_engine.md R84). -/
def Acc.fold (acc : Acc) : Word × Word :=
  ((acc.roll ^^^ acc.carry) ^^^ acc.xor, (acc.rot ^^^ acc.aux) ^^^ acc.wsum)

/-- `ChecksumFn(IMG)`: `none` is InsufficientData (41_checksum_engine.md R75, R76). -/
def checksumFn (tie : Config.AuxTie) (m : Memory) : Option (Word × Word) :=
  if m.len < ckMinLen then none else some (windowLoop tie m ckStart Acc.seed ckWords).fold

/-- Run ChecksumFn over IMG and go on with the pair; InsufficientData is raised unchanged (41_checksum_engine.md R88,
42_header_codec.md R99, R100). -/
def State.withPair (s : State) (k : Word × Word → State) : State :=
  s.need s.img fun m =>
    match checksumFn s.params.auxTie m with
    | none => s.raise .insufficientData
    | some pair => k pair

/-! ### CHECKSUM -/

/-- What CHECKSUM does with the pair (41_checksum_engine.md R88). -/
def State.finishChecksum (s : State) (pair : Word × Word) : State :=
  State.ok { s with ckHi := some pair.1, ckLo := some pair.2 }

/-- CHECKSUM (41_checksum_engine.md R88). -/
def execChecksum (s : State) : Host.Outcome State Fault Refusal :=
  .next (s.withPair fun pair => s.finishChecksum pair)

end Sys2Proof.Machine
end

