-- ==== Sys2Proof/Machine/Render.lean ====
section
/-! DEFINITION. P_RENDER, the text of a header record (42_header_codec.md R101): what R101 fixes is built in here, and what
it leaves open (D19) comes from the free value `Config.renderStyle` (DESIGN CHOICE, notes/assumptions/7.md). -/

namespace Sys2Proof.Machine

open Sys2Proof.Config

/-- The thirteen fields. -/
def allFields : List Field :=
  [.cfgFlags, .clockRate, .bootAddress, .luVersion, .crcHi, .crcLo, .reserved1, .title, .reserved2, .category, .unique,
   .destination, .version]

/-- The ASCII code of a hexadecimal digit. -/
def hexDigit (upper : Bool) (d : Nat) : Byte :=
  BitVec.ofNat 8 (if d < 10 then 0x30 + d else if upper then 0x37 + d else 0x57 + d)

/-- The lowest `n` hexadecimal digits of a number. -/
def hexDigits (upper : Bool) : Nat → Nat → List Byte
  | 0, _ => []
  | n + 1, v => hexDigits upper n (v / 16) ++ [hexDigit upper (v % 16)]

/-- A number in hexadecimal: all its digits, and zeros in front up to the style's width. -/
def hexText (fs : FieldStyle) (v : Nat) : List Byte :=
  fs.hexMark ++ hexDigits fs.upper (max fs.width (Nat.log2 v / 4 + 1)) v

/-- A printable ASCII character: no control code and not above 0x7F. -/
def isPrintable (c : Byte) : Bool := decide (0x20 ≤ c.toNat) && decide (c.toNat < 0x7F)

/-- A character code as its ASCII character; how another code is shown is open. -/
def codeText (c : Byte) (other : List Byte) : List Byte := if isPrintable c then [c] else other

/-- What the text shows of a field: integers in hexadecimal, character codes as their characters; the title and reserved_2
are open. -/
def valueText (fs : FieldStyle) (h : Header) : Field → List Byte
  | .cfgFlags => hexText fs h.cfgFlags.toNat
  | .clockRate => hexText fs h.clockRate.toNat
  | .bootAddress => hexText fs h.bootAddress.toNat
  | .luVersion => hexText fs h.luVersion.toNat
  | .crcHi => hexText fs h.crcHi.toNat
  | .crcLo => hexText fs h.crcLo.toNat
  | .reserved1 => hexText fs h.reserved1.toNat
  | .title => fs.shown
  | .reserved2 => fs.shown
  | .category => codeText h.category fs.shown
  | .unique =>
    codeText (h.unique.extractLsb' 8 8) fs.shown ++ fs.between ++ codeText (h.unique.extractLsb' 0 8) fs.second
  | .destination => codeText h.destination fs.shown
  | .version => hexText fs h.version.toNat

/-- A field with its label. -/
def fieldText (st : RenderStyle) (h : Header) (f : Field) : List Byte :=
  (st.field f).before ++ valueText (st.field f) h f ++ (st.field f).after

/-- One line. -/
def lineText (st : RenderStyle) (h : Header) (line : List Field) : List Byte := (line.map (fieldText st h)).flatten

/-- Whether a byte string stands somewhere in another. -/
def occursIn (e t : List Byte) : Bool := t.tails.any (fun s => e.isPrefixOf s)

/-- Whether a line shows one field, or the checksum pair. -/
def oneField (line : List Field) : Bool := line.length == 1 || line.isPerm [.crcHi, .crcLo]

/-- Whether a style gives the header one line per field: every field on exactly one line, and no line broken by the
terminator before its end. -/
def admits (st : RenderStyle) (h : Header) : Bool :=
  st.order.flatten.isPerm allFields && st.order.all oneField && !st.ending.isEmpty &&
    st.order.all (fun line => !occursIn st.ending (lineText st h line ++ st.ending.dropLast))

/-- Lines with their terminators. -/
def joinLines (ending : List Byte) (endLast : Bool) (lines : List (List Byte)) : List Byte :=
  ending.intercalate lines ++ if endLast then ending else []

/-- The text in a style. -/
def styledText (st : RenderStyle) (h : Header) : List Byte :=
  joinLines st.ending st.endLast (st.order.map (lineText st h))

/-- A style that every header admits: capital digits, no labels, lines ended by 0x0A, and what R101 leaves open shown in
hexadecimal. It shows that R101 can be met; `renderText` takes it where the free style is none that R101 allows. -/
def plainStyle (h : Header) : RenderStyle where
  order := allFields.map fun f => [f]
  field := fun f =>
    { before := [], after := [], hexMark := [], upper := true, width := 1, between := []
      shown :=
        match f with
        | .title => (h.title.map fun b => hexDigits true 2 b.toNat).flatten
        | .reserved2 => hexDigits true 14 h.reserved2.toNat
        | .category => hexDigits true 2 h.category.toNat
        | .unique => hexDigits true 2 (h.unique.extractLsb' 8 8).toNat
        | .destination => hexDigits true 2 h.destination.toNat
        | _ => []
      second := hexDigits true 2 (h.unique.extractLsb' 0 8).toNat }
  ending := [0x0A#8]
  endLast := true

/-- P_RENDER (42_header_codec.md R101): the text in the free style, which nothing constrains but that the text has the form
R101 fixes. -/
def renderText (h : Header) : List Byte :=
  if admits (renderStyle h) h then styledText (renderStyle h) h else styledText (plainStyle h) h

end Sys2Proof.Machine
end

