-- ==== Sys2Proof/Machine/HeaderCodec.lean ====
section
/-! DEFINITION. The commands of the header codec: HDECODE, HENCODE, HRECOMP, HDEFAULT, HRENDER (42_header_codec.md). -/

namespace Sys2Proof.Machine

/-- HDECODE (42_header_codec.md R94): the length test, then the title test (R96), then all thirteen fields. -/
def execHdecode (s : State) : Host.Outcome State Fault Refusal :=
  .next (s.need s.img fun m =>
    if m.len < hdrLen then s.raise .truncatedHeader
    else
      let h := decodeHeader (m.bytes 0 hdrLen)
      if titleOk s.params h.title then State.ok { s with hreg := HReg.ofHeader h }
      else s.raise .invalidTitleEncoding)

/-- HENCODE (42_header_codec.md R97), with the check of R98. -/
def execHencode (s : State) : Host.Outcome State Fault Refusal :=
  .next (s.need s.hreg.full fun h =>
    match toHbuf (encodeHeader s.params.titleTrunc h) with
    | none => s.fault .layout
    | some b => State.ok { s with hbuf := some b })

/-- What HRECOMP does with the pair (42_header_codec.md R99). -/
def State.finishHrecomp (s : State) (pair : Word × Word) : State :=
  State.ok { s with
    hreg := { s.hreg with crcHi := some pair.1, crcLo := some pair.2 }
    ckHi := some pair.1
    ckLo := some pair.2 }

/-- HRECOMP (42_header_codec.md R99). -/
def execHrecomp (s : State) : Host.Outcome State Fault Refusal :=
  .next (s.withPair fun pair => s.finishHrecomp pair)

/-- The default header with a checksum pair (42_header_codec.md R100; the DEF_ constants of 00_scope.md R9). -/
def defaultHeader (d : Config.Defaults) (pair : Word × Word) : Header where
  cfgFlags := 0x80371240#32
  clockRate := 0x0000000F#32
  bootAddress := 0x80010000#32
  luVersion := d.luVersion
  crcHi := pair.1
  crcLo := pair.2
  reserved1 := d.reserved1
  title := d.title
  reserved2 := d.reserved2
  category := 0x4E#8
  unique := d.unique
  destination := 0x41#8
  version := d.version

/-- What HDEFAULT does with the pair (42_header_codec.md R100). -/
def State.finishHdefault (s : State) (pair : Word × Word) : State :=
  State.ok { s with
    hreg := HReg.ofHeader (defaultHeader s.params.defaults pair)
    ckHi := some pair.1
    ckLo := some pair.2 }

/-- HDEFAULT (42_header_codec.md R100). -/
def execHdefault (s : State) : Host.Outcome State Fault Refusal :=
  .next (s.withPair fun pair => s.finishHdefault pair)

/-- HRENDER (42_header_codec.md R101). -/
def execHrender (s : State) : Host.Outcome State Fault Refusal :=
  .next (s.need s.hreg.full fun h => State.ok { s with rtxt := some (renderText h) })

end Sys2Proof.Machine
end

