-- ==== Sys2Proof/Machine/ImageBuffer.lean ====
section
/-! DEFINITION. The image-buffer commands: LOAD, STORE, HOVERWRITE, HPREPEND, PAD_TO, PAD_BY, INJECT_AT
(43_image_buffer.md). -/

namespace Sys2Proof.Machine

/-- LOAD once its draw is known (43_image_buffer.md R103): a failure leaves IMG and IMG_LEN unwritten. -/
def State.loadWith (s : State) : LoadDraw → State
  | .readFail => State.raise { s with img := none } .readError
  | .bytes src =>
    if pastImgMax s.params src.length then s.refuse else State.ok { s with img := some (Memory.ofBytes src) }

/-- LOAD (43_image_buffer.md R103). -/
def execLoad (s : State) : Host.Outcome State Fault Refusal :=
  .next (s.drawLoad.2.loadWith s.drawLoad.1)

/-- STORE once its draw is known (43_image_buffer.md R104): after a failure the sink holds any byte string, and IMG is not
read; after a success IMG is read. -/
def State.storeWith (s : State) : StoreDraw → State
  | .writeFail sunk => State.raise { s with snk := sunk } .writeError
  | .ok => s.need s.img fun m => State.ok { s with snk := m.bytes 0 m.len }

/-- STORE (43_image_buffer.md R104): the draw comes first, then what it asks for (60_exceptions.md R117). Where that ends in a
fault, the draw has been taken (DESIGN CHOICE, notes/assumptions/11.md). -/
def execStore (s : State) : Host.Outcome State Fault Refusal :=
  .next (s.drawStore.2.storeWith s.drawStore.1)

/-- HOVERWRITE (43_image_buffer.md R105): the length test comes before the read of HBUF (60_exceptions.md R117). -/
def execHoverwrite (s : State) : Host.Outcome State Fault Refusal :=
  .next (s.need s.img fun m =>
    if m.len < hdrLen then s.fault .shortOverwrite
    else s.need s.hbuf fun b => State.ok { s with img := some (m.write 0 b.toList) })

/-- HPREPEND (43_image_buffer.md R106). -/
def execHprepend (s : State) : Host.Outcome State Fault Refusal :=
  .next (s.need s.img fun m =>
    if pastImgMax s.params (m.len + hdrLen) then s.refuse
    else s.need s.hbuf fun b => State.ok { s with img := some (m.prepend b.toList) })

/-- PAD_TO fill (43_image_buffer.md R107). -/
def execPadTo (fill : Byte) (s : State) : Host.Outcome State Fault Refusal :=
  .next (s.need s.arg0 fun target => s.need s.img fun m =>
    if m.len < target then
      if pastImgMax s.params target then s.refuse
      else State.ok { s with img := some (m.growTo target fill) }
    else s.ok)

/-- PAD_BY fill (43_image_buffer.md R108). -/
def execPadBy (fill : Byte) (s : State) : Host.Outcome State Fault Refusal :=
  .next (s.need s.arg0 fun count => s.need s.img fun m =>
    if pastImgMax s.params (m.len + count) then s.refuse
    else State.ok { s with img := some (m.append (List.replicate count fill)) })

/-- INJECT_AT (43_image_buffer.md R109). -/
def execInjectAt (s : State) : Host.Outcome State Fault Refusal :=
  .next (s.need s.arg0 fun offset => s.need s.dbuf fun data => s.need s.img fun m =>
    let last := offset + data.length
    if m.len < last then
      if pastImgMax s.params last then s.refuse
      else State.ok { s with img := some ((m.growTo last s.params.injectFill).write offset data) }
    else State.ok { s with img := some (m.write offset data) })

end Sys2Proof.Machine
end

