-- ==== Sys2Proof/Machine/Dispatch.lean ====
section
/-! DEFINITION. exec: one arm per command, each one direct call of that command's meaning. -/

namespace Sys2Proof.Machine

def exec (i : Instr) (s : State) : Host.Outcome State Fault Refusal :=
  match i with
  | .checksum => Sys2Proof.Machine.execChecksum s
  | .hdecode => Sys2Proof.Machine.execHdecode s
  | .hencode => Sys2Proof.Machine.execHencode s
  | .hrecomp => Sys2Proof.Machine.execHrecomp s
  | .hdefault => Sys2Proof.Machine.execHdefault s
  | .hrender => Sys2Proof.Machine.execHrender s
  | .load => Sys2Proof.Machine.execLoad s
  | .store => Sys2Proof.Machine.execStore s
  | .hoverwrite => Sys2Proof.Machine.execHoverwrite s
  | .hprepend => Sys2Proof.Machine.execHprepend s
  | .padTo fill => Sys2Proof.Machine.execPadTo fill s
  | .padBy fill => Sys2Proof.Machine.execPadBy fill s
  | .injectAt => Sys2Proof.Machine.execInjectAt s

end Sys2Proof.Machine
end

