-- ==== Sys2Proof/Machine/Engine.lean ====
section
/-! DEFINITION. The word-step decomposition of a checksum run (41_checksum_engine.md R89), and the choice between it and
the one-transition reading of R88 (D30; DESIGN CHOICE, notes/assumptions/9.md). -/

namespace Sys2Proof.Machine

/-- The command's run of ChecksumFn, for the three commands that have one (41_checksum_engine.md R89). -/
def runCmd : Instr → Option RunCmd
  | .checksum => some .checksum
  | .hrecomp => some .hrecomp
  | .hdefault => some .hdefault
  | .hdecode => none
  | .hencode => none
  | .hrender => none
  | .load => none
  | .store => none
  | .hoverwrite => none
  | .hprepend => none
  | .padTo _ => none
  | .padBy _ => none
  | .injectAt => none

/-- Rows 1 and 2 of 41_checksum_engine.md R89: from IDLE, to IDLE with InsufficientData, or to SEED. -/
def startRun (c : RunCmd) (s : State) : State :=
  s.need s.img fun m =>
    if m.len < ckMinLen then s.raise .insufficientData else { s with eng := .seed c }

/-- The issuing command finishes (41_checksum_engine.md R88, 42_header_codec.md R99, R100). -/
def finishRun (c : RunCmd) (pair : Word × Word) (s : State) : State :=
  match c with
  | .checksum => s.finishChecksum pair
  | .hrecomp => s.finishHrecomp pair
  | .hdefault => s.finishHdefault pair

/-- One step of ENGINE (41_checksum_engine.md R89). A LOOP step whose word does not exist, which no run reaches, reads an
element that holds no value and ends the run (notes/assumptions/10.md). -/
def engineStep (s : State) : State :=
  match s.eng with
  | .idle => s
  | .seed c => { s with eng := .loop c Acc.seed ckStart }
  | .loop c acc wptr =>
    if wptr < ckMinLen then
      match s.img.bind (fun m => m.read32 wptr) with
      | none => State.fault { s with eng := .idle } .unwritten
      | some w => { s with eng := .loop c (wordStep s.params.auxTie acc w) (wptr + 4) }
    else { s with eng := .fold c acc wptr }
  | .fold c acc _ => finishRun c acc.fold { s with eng := .idle }

/-- ENGINE takes a command: in one transition (`exec`), or, where the parameters ask for word steps and the command runs
ChecksumFn, by starting a run (41_checksum_engine.md R89). -/
def issue (i : Instr) (s : State) : Host.Outcome State Fault Refusal :=
  match s.params.grain, runCmd i with
  | .wordSteps, some c => .next (startRun c s)
  | .wordSteps, none => exec i s
  | .atomic, _ => exec i s

end Sys2Proof.Machine
end

