-- ==== Sys2Proof/Machine/HostPort.lean ====
section
/-! DEFINITION. HOST's operations on the block: HostWrite (10_state.md R21), HostRead (R22), HostReadImg (20_memory.md R45)
and the command write (30_encoding.md R70). -/

namespace Sys2Proof.Machine

/-- The host registers (10_state.md R20, R32). -/
inductive Reg where
  | cmd
  | status
  | arg0
  | ckHi
  | ckLo
  | imgLen
  | hbuf
  | dbuf
  | rtxt
  | hCfgFlags
  | hClockRate
  | hBootAddress
  | hLuVersion
  | hCrcHi
  | hCrcLo
  | hReserved1
  | hTitle
  | hReserved2
  | hCategory
  | hUnique
  | hDestination
  | hVersion
  deriving DecidableEq, Repr

/-- The register a number names; every other number is reserved (10_state.md R20, R31, R32). -/
def Reg.ofNum (n : Nat) : Option Reg :=
  match n with
  | 0x00 => some .cmd
  | 0x01 => some .status
  | 0x02 => some .arg0
  | 0x03 => some .ckHi
  | 0x04 => some .ckLo
  | 0x05 => some .imgLen
  | 0x08 => some .hbuf
  | 0x09 => some .dbuf
  | 0x0A => some .rtxt
  | 0x10 => some .hCfgFlags
  | 0x11 => some .hClockRate
  | 0x12 => some .hBootAddress
  | 0x13 => some .hLuVersion
  | 0x14 => some .hCrcHi
  | 0x15 => some .hCrcLo
  | 0x16 => some .hReserved1
  | 0x17 => some .hTitle
  | 0x18 => some .hReserved2
  | 0x19 => some .hCategory
  | 0x1A => some .hUnique
  | 0x1B => some .hDestination
  | 0x1C => some .hVersion
  | _ => none

/-- Whether ENGINE is IDLE (10_state.md R21, R22). -/
def State.engIdle (s : State) : Bool := s.eng == .idle

/-! ### HostRead -/

/-- What a read of a register finds. -/
inductive RegContent where
  /-- The register's access does not include read. -/
  | notReadable
  | unwritten
  | value (v : HostVal)
  deriving DecidableEq, Repr

/-- The content of a register that holds a number. -/
def RegContent.ofBits {w : Nat} (r : Option (BitVec w)) : RegContent :=
  match r with
  | none => .unwritten
  | some x => .value (.num x.toNat)

/-- The content of a register that holds a byte string. -/
def RegContent.ofBytes (r : Option (List Byte)) : RegContent :=
  match r with
  | none => .unwritten
  | some b => .value (.bytes b)

/-- The content of a register that holds a natural number. -/
def RegContent.ofNat (r : Option Nat) : RegContent :=
  match r with
  | none => .unwritten
  | some n => .value (.num n)

/-- Every register's content (10_state.md R20, R32); CMD is write only. -/
def State.regContent (s : State) : Reg → RegContent
  | .cmd => .notReadable
  | .status => .ofBits s.status
  | .arg0 => .ofNat s.arg0
  | .ckHi => .ofBits s.ckHi
  | .ckLo => .ofBits s.ckLo
  | .imgLen => .ofNat (s.img.map fun m => m.len)
  | .hbuf => .ofBytes (s.hbuf.map fun b => b.toList)
  | .dbuf => .ofBytes s.dbuf
  | .rtxt => .ofBytes s.rtxt
  | .hCfgFlags => .ofBits s.hreg.cfgFlags
  | .hClockRate => .ofBits s.hreg.clockRate
  | .hBootAddress => .ofBits s.hreg.bootAddress
  | .hLuVersion => .ofBits s.hreg.luVersion
  | .hCrcHi => .ofBits s.hreg.crcHi
  | .hCrcLo => .ofBits s.hreg.crcLo
  | .hReserved1 => .ofBits s.hreg.reserved1
  | .hTitle => .ofBytes s.hreg.title
  | .hReserved2 => .ofBits s.hreg.reserved2
  | .hCategory => .ofBits s.hreg.category
  | .hUnique => .ofBits s.hreg.unique
  | .hDestination => .ofBits s.hreg.destination
  | .hVersion => .ofBits s.hreg.version

/-- HOST has read a value. -/
def State.reply (s : State) (v : HostVal) : State := { s with replies := s.replies ++ [v] }

/-- `HostRead(r)` (10_state.md R22). -/
def hostRead (r : Nat) (s : State) : State :=
  if s.engIdle then
    match Reg.ofNum r with
    | none => s.refuse
    | some reg =>
      match s.regContent reg with
      | .notReadable => s.refuse
      | .unwritten => s.fault .unwritten
      | .value v => s.reply v
  else s.refuse

/-- `HostReadImg(a, n)` (20_memory.md R45); IMG unwritten is a read of an element that holds no value
(DEDUCED, notes/assumptions/13.md). -/
def hostReadImg (a n : Nat) (s : State) : State :=
  if s.engIdle then
    s.need s.img fun m =>
      match m.read a n with
      | none => s.refuse
      | some b => s.reply (.bytes b)
  else s.refuse

/-! ### HostWrite -/

/-- A number that fits in `w` bits (10_state.md R21). -/
def fitBits (w : Nat) (v : HostVal) : Option (BitVec w) :=
  match v with
  | .num n => if n < 2 ^ w then some (BitVec.ofNat w n) else none
  | .bytes _ => none

/-- A number below 2^bits, kept as a natural number (10_state.md R21, R25). -/
def fitNat (bits : Nat) (v : HostVal) : Option Nat :=
  match v with
  | .num n => if n < 2 ^ bits then some n else none
  | .bytes _ => none

/-- A byte string. -/
def fitBytes (v : HostVal) : Option (List Byte) :=
  match v with
  | .num _ => none
  | .bytes b => some b

/-- The state after an admitted write of a register other than CMD; `none` where the write is not admitted: a read-only
register, a value that does not fit, a title that fails P_TITLE_VALID (10_state.md R20, R21, R32, R33). -/
def State.regWrite (s : State) (r : Reg) (v : HostVal) : Option State :=
  match r with
  | .cmd => none
  | .status => none
  | .arg0 => (fitNat s.params.argBits v).map fun n => { s with arg0 := some n }
  | .ckHi => none
  | .ckLo => none
  | .imgLen => none
  | .hbuf => ((fitBytes v).bind toHbuf).map fun b => { s with hbuf := some b }
  | .dbuf => (fitBytes v).map fun b => { s with dbuf := some b }
  | .rtxt => none
  | .hCfgFlags => (fitBits 32 v).map fun x => { s with hreg := { s.hreg with cfgFlags := some x } }
  | .hClockRate => (fitBits 32 v).map fun x => { s with hreg := { s.hreg with clockRate := some x } }
  | .hBootAddress => (fitBits 32 v).map fun x => { s with hreg := { s.hreg with bootAddress := some x } }
  | .hLuVersion => (fitBits 32 v).map fun x => { s with hreg := { s.hreg with luVersion := some x } }
  | .hCrcHi => none
  | .hCrcLo => none
  | .hReserved1 => (fitBits 64 v).map fun x => { s with hreg := { s.hreg with reserved1 := some x } }
  | .hTitle =>
    ((fitBytes v).filter (titleOk s.params)).map fun t => { s with hreg := { s.hreg with title := some t } }
  | .hReserved2 => (fitBits 56 v).map fun x => { s with hreg := { s.hreg with reserved2 := some x } }
  | .hCategory => (fitBits 8 v).map fun x => { s with hreg := { s.hreg with category := some x } }
  | .hUnique => (fitBits 16 v).map fun x => { s with hreg := { s.hreg with unique := some x } }
  | .hDestination => (fitBits 8 v).map fun x => { s with hreg := { s.hreg with destination := some x } }
  | .hVersion => (fitBits 8 v).map fun x => { s with hreg := { s.hreg with version := some x } }

/-- `HostWrite(CMD, word)` (30_encoding.md R70): a reserved word is refused and STATUS is not written (R71). -/
def commandWrite (w : Word) (s : State) : Host.Outcome State Fault Refusal :=
  match decode w with
  | .error _ => .next s.refuse
  | .ok i => issue i s

/-- `HostWrite(r, v)` (10_state.md R21, R23). -/
def hostWrite (r : Nat) (v : HostVal) (s : State) : Host.Outcome State Fault Refusal :=
  if s.engIdle then
    match Reg.ofNum r with
    | none => .next s.refuse
    | some .cmd =>
      match fitBits 32 v with
      | none => .next s.refuse
      | some w => commandWrite w s
    | some reg => .next ((s.regWrite reg v).getD s.refuse)
  else .next s.refuse

/-- One operation of HOST. -/
def hostStep (op : HostOp) (s : State) : Host.Outcome State Fault Refusal :=
  match op with
  | .write r v => hostWrite r v s
  | .read r => .next (hostRead r s)
  | .readImg a n => .next (hostReadImg a n s)

end Sys2Proof.Machine
end

