-- ==== Sys2Proof/Machine/Step.lean ====
section
/-! DEFINITION. One step of the machine: ENGINE's, while ENG is not IDLE (HOST then has no step, 10_state.md R17), and else
HOST's next operation. With no operation left HOST does nothing and the state stays (notes/assumptions/3.md). -/

namespace Sys2Proof.Machine

/-- One step. -/
def step (s : State) : Host.Outcome State Fault Refusal :=
  match s.eng with
  | .idle =>
    match s.hostOps with
    | [] => .next s
    | op :: ops => hostStep op { s with hostOps := ops }
  | .seed _ => .next (engineStep s)
  | .loop _ _ _ => .next (engineStep s)
  | .fold _ _ _ => .next (engineStep s)

/-- `s` with HOST's next operation the write of this instruction's word to CMD, and ENGINE IDLE, so that the next step
takes it (notes/assumptions/3.md). Bits at `nbits` and above are 0. -/
def State.withFetchWord (s : State) (nbits w : Nat) : State :=
  { s with eng := .idle, hostOps := .write 0x00 (.num (w % 2 ^ nbits)) :: s.hostOps }

end Sys2Proof.Machine
end

