-- ==== Sys2Proof/Safety.lean ====
section
/-! DEFINITION. What counts as a safe run, and the invariant of the machine, in the terms claims use. -/

namespace Sys2Proof.Machine

/-- "A claim about a run takes 'FAULTS empty and REFUSED false' as a premise" (10_state.md R41). -/
abbrev State.Clean (s : State) : Prop := s.faults = {} ∧ s.refused = false

/-- What a run of ENGINE relies on while it is under way (41_checksum_engine.md R89, 10_state.md R37): the image is long
enough, and WPTR is a multiple of 4 in the window. -/
def State.runOk (s : State) : Prop :=
  match s.eng with
  | .idle => True
  | .seed _ => ∃ m, s.img = some m ∧ ckMinLen ≤ m.len
  | .loop _ _ wptr => (∃ m, s.img = some m ∧ ckMinLen ≤ m.len) ∧ ckStart ≤ wptr ∧ wptr ≤ ckMinLen ∧ wptr % 4 = 0
  | .fold _ _ wptr => (∃ m, s.img = some m ∧ ckMinLen ≤ m.len) ∧ wptr = ckMinLen

/-- The invariant of the machine: from a state that has it, every step keeps it. -/
structure State.Inv (s : State) : Prop where
  /-- IMG keeps its canonical form. -/
  imgWf : ∀ m, s.img = some m → m.wf
  /-- IMG_LEN never exceeds P_IMG_MAX (20_memory.md R43). -/
  imgMax : ∀ m, s.img = some m → pastImgMax s.params m.len = false
  /-- STATUS codes 0x04 and 0x07 to 0xFF are never written (60_exceptions.md R111, 42_header_codec.md R95). -/
  statusCode : ∀ b, s.status = some b → b.toNat ≤ 6 ∧ b.toNat ≠ 4
  /-- ARG0 has P_ARG_BITS bits (10_state.md R25). -/
  arg0Fits : ∀ n, s.arg0 = some n → n < 2 ^ s.params.argBits
  /-- H_TITLE holds valid text (10_state.md R32), given that the default title is valid. -/
  titleDefault : titleOk s.params s.params.defaults.title = true
  titleText : ∀ t, s.hreg.title = some t → titleOk s.params t = true
  /-- The two values of a checksum pair are written together (10_state.md R26, R32). -/
  pairTogether : s.ckHi.isSome = s.ckLo.isSome
  crcTogether : s.hreg.crcHi.isSome = s.hreg.crcLo.isSome
  /-- F_LAYOUT is never recorded (42_header_codec.md R98). -/
  noLayout : s.faults.layout = false
  /-- A run under way has what it needs. -/
  runUnderWay : s.runOk

end Sys2Proof.Machine
end

