-- ==== Sys2Proof/Certificates/Slice0/Obligations.lean ====
section
/-! DEFINITION. The statements about the model, each from numbered rules of spec/. Helper definitions stand in
`Sys2Proof.Claims` and restate tables of the spec in the spec's own numbers. -/

namespace Sys2Proof.Claims

open Sys2Proof.Machine

/-- The reserved words of 30_encoding.md R71. -/
def Reserved (w : Word) : Prop :=
  (w.extractLsb' 0 8 = 0x00#8 ∨ (0x07 ≤ (w.extractLsb' 0 8).toNat ∧ (w.extractLsb' 0 8).toNat ≤ 0x0F) ∨
    0x17 ≤ (w.extractLsb' 0 8).toNat) ∨
  w.extractLsb' 16 16 ≠ 0#16 ∨
  (w.extractLsb' 8 8 ≠ 0#8 ∧ w.extractLsb' 0 8 ≠ 0x14#8 ∧ w.extractLsb' 0 8 ≠ 0x15#8)

/-- A pattern of 30_encoding.md R69: match, mask, and the command it selects, given the word's FILL. -/
structure Pattern where
  matchBits : Word
  maskBits : Word
  command : Byte → Instr

/-- The thirteen patterns of 30_encoding.md R69. -/
def patterns : List Pattern :=
  [{ matchBits := 0x00000001#32, maskBits := 0xFFFFFFFF#32, command := fun _ => .checksum },
   { matchBits := 0x00000002#32, maskBits := 0xFFFFFFFF#32, command := fun _ => .hdecode },
   { matchBits := 0x00000003#32, maskBits := 0xFFFFFFFF#32, command := fun _ => .hencode },
   { matchBits := 0x00000004#32, maskBits := 0xFFFFFFFF#32, command := fun _ => .hrecomp },
   { matchBits := 0x00000005#32, maskBits := 0xFFFFFFFF#32, command := fun _ => .hdefault },
   { matchBits := 0x00000006#32, maskBits := 0xFFFFFFFF#32, command := fun _ => .hrender },
   { matchBits := 0x00000010#32, maskBits := 0xFFFFFFFF#32, command := fun _ => .load },
   { matchBits := 0x00000011#32, maskBits := 0xFFFFFFFF#32, command := fun _ => .store },
   { matchBits := 0x00000012#32, maskBits := 0xFFFFFFFF#32, command := fun _ => .hoverwrite },
   { matchBits := 0x00000013#32, maskBits := 0xFFFFFFFF#32, command := fun _ => .hprepend },
   { matchBits := 0x00000014#32, maskBits := 0xFFFF00FF#32, command := fun fill => .padTo fill },
   { matchBits := 0x00000015#32, maskBits := 0xFFFF00FF#32, command := fun fill => .padBy fill },
   { matchBits := 0x00000016#32, maskBits := 0xFFFFFFFF#32, command := fun _ => .injectAt }]

/-- A word matches a pattern. -/
def Pattern.Matches (p : Pattern) (w : Word) : Prop := w &&& p.maskBits = p.matchBits

/-- Every readable register of 10_state.md R20 and R32 by its number, with what the state holds of it: `none` where it is
unwritten. -/
def readable (s : State) : List (Nat × Option HostVal) :=
  [(0x01, s.status.map fun x => .num x.toNat),
   (0x02, s.arg0.map fun n => .num n),
   (0x03, s.ckHi.map fun x => .num x.toNat),
   (0x04, s.ckLo.map fun x => .num x.toNat),
   (0x05, s.img.map fun m => .num m.len),
   (0x08, s.hbuf.map fun b => .bytes b.toList),
   (0x09, s.dbuf.map fun b => .bytes b),
   (0x0A, s.rtxt.map fun b => .bytes b),
   (0x10, s.hreg.cfgFlags.map fun x => .num x.toNat),
   (0x11, s.hreg.clockRate.map fun x => .num x.toNat),
   (0x12, s.hreg.bootAddress.map fun x => .num x.toNat),
   (0x13, s.hreg.luVersion.map fun x => .num x.toNat),
   (0x14, s.hreg.crcHi.map fun x => .num x.toNat),
   (0x15, s.hreg.crcLo.map fun x => .num x.toNat),
   (0x16, s.hreg.reserved1.map fun x => .num x.toNat),
   (0x17, s.hreg.title.map fun b => .bytes b),
   (0x18, s.hreg.reserved2.map fun x => .num x.toNat),
   (0x19, s.hreg.category.map fun x => .num x.toNat),
   (0x1A, s.hreg.unique.map fun x => .num x.toNat),
   (0x1B, s.hreg.destination.map fun x => .num x.toNat),
   (0x1C, s.hreg.version.map fun x => .num x.toNat)]

/-- The reserved register numbers (10_state.md R20, R31). -/
def ReservedRegister (r : Nat) : Prop := r = 0x06 ∨ r = 0x07 ∨ (0x0B ≤ r ∧ r ≤ 0x0F) ∨ 0x1D ≤ r

/-- The writes of a register other than CMD that 10_state.md R21 admits while ENGINE is IDLE, by the number, the value and the
state after: the width or byte length of R20 and R32, P_TITLE_VALID for H_TITLE, and the one field that is set. -/
inductive RegisterWrite (s : State) : Nat → HostVal → State → Prop
  | arg0 (n : Nat) (h : n < 2 ^ s.params.argBits) : RegisterWrite s 0x02 (.num n) { s with arg0 := some n }
  | hbuf (b : Vector Byte 64) : RegisterWrite s 0x08 (.bytes b.toList) { s with hbuf := some b }
  | dbuf (b : List Byte) : RegisterWrite s 0x09 (.bytes b) { s with dbuf := some b }
  | cfgFlags (x : BitVec 32) : RegisterWrite s 0x10 (.num x.toNat) { s with hreg := { s.hreg with cfgFlags := some x } }
  | clockRate (x : BitVec 32) : RegisterWrite s 0x11 (.num x.toNat) { s with hreg := { s.hreg with clockRate := some x } }
  | bootAddress (x : BitVec 32) :
      RegisterWrite s 0x12 (.num x.toNat) { s with hreg := { s.hreg with bootAddress := some x } }
  | luVersion (x : BitVec 32) : RegisterWrite s 0x13 (.num x.toNat) { s with hreg := { s.hreg with luVersion := some x } }
  | reserved1 (x : BitVec 64) : RegisterWrite s 0x16 (.num x.toNat) { s with hreg := { s.hreg with reserved1 := some x } }
  | title (b : List Byte) (h : titleOk s.params b = true) :
      RegisterWrite s 0x17 (.bytes b) { s with hreg := { s.hreg with title := some b } }
  | reserved2 (x : BitVec 56) : RegisterWrite s 0x18 (.num x.toNat) { s with hreg := { s.hreg with reserved2 := some x } }
  | category (x : BitVec 8) : RegisterWrite s 0x19 (.num x.toNat) { s with hreg := { s.hreg with category := some x } }
  | unique (x : BitVec 16) : RegisterWrite s 0x1A (.num x.toNat) { s with hreg := { s.hreg with unique := some x } }
  | destination (x : BitVec 8) : RegisterWrite s 0x1B (.num x.toNat) { s with hreg := { s.hreg with destination := some x } }
  | version (x : BitVec 8) : RegisterWrite s 0x1C (.num x.toNat) { s with hreg := { s.hreg with version := some x } }

/-- `BE(IMG[a..a+n))` (00_scope.md R13). -/
def beAt (m : Memory) (a n : Nat) : Nat := be ((List.range n).map fun k => m.byte (a + k))

/-- The 0x40000 big-endian words from address `a` on, in rising order (20_memory.md R48). -/
def wordsFrom (m : Memory) (a : Nat) : List Word :=
  (List.range 0x40000).map fun k =>
    BitVec.ofNat 32 ((m.byte (a + 4 * k)).toNat * 2 ^ 24 + (m.byte (a + 4 * k + 1)).toNat * 2 ^ 16 +
      (m.byte (a + 4 * k + 2)).toNat * 2 ^ 8 + (m.byte (a + 4 * k + 3)).toNat)

/-- The pair of a list of words: seed, step through the words in order, and fold by XOR, three accumulators into each
output (41_checksum_engine.md R77, R78, R84). -/
def pairOf (tie : Config.AuxTie) (ws : List Word) : Word × Word :=
  let acc := ws.foldl (wordStep tie) Acc.seed
  ((acc.roll ^^^ acc.carry) ^^^ acc.xor, (acc.rot ^^^ acc.aux) ^^^ acc.wsum)

/-- One sequence of well-formed UTF-8: a row of 42_header_codec.md R93. -/
def Utf8Sequence (q : List Byte) : Prop :=
  ∃ row ∈ [[(0x00, 0x7F)], [(0xC2, 0xDF), (0x80, 0xBF)], [(0xE0, 0xE0), (0xA0, 0xBF), (0x80, 0xBF)],
      [(0xE1, 0xEC), (0x80, 0xBF), (0x80, 0xBF)], [(0xED, 0xED), (0x80, 0x9F), (0x80, 0xBF)],
      [(0xEE, 0xEF), (0x80, 0xBF), (0x80, 0xBF)], [(0xF0, 0xF0), (0x90, 0xBF), (0x80, 0xBF), (0x80, 0xBF)],
      [(0xF1, 0xF3), (0x80, 0xBF), (0x80, 0xBF), (0x80, 0xBF)], [(0xF4, 0xF4), (0x80, 0x8F), (0x80, 0xBF), (0x80, 0xBF)]],
    List.Forall₂ (fun (r : Nat × Nat) (b : Byte) => r.1 ≤ b.toNat ∧ b.toNat ≤ r.2) row q

/-- The value of a hexadecimal digit's ASCII code, in either case. -/
def digitValue (b : Byte) : Option Nat :=
  if 0x30 ≤ b.toNat ∧ b.toNat ≤ 0x39 then some (b.toNat - 0x30)
  else if 0x41 ≤ b.toNat ∧ b.toNat ≤ 0x46 then some (b.toNat - 0x37)
  else if 0x61 ≤ b.toNat ∧ b.toNat ≤ 0x66 then some (b.toNat - 0x57)
  else none

/-- `ds` is the number `v` in hexadecimal, most significant digit first. -/
def HexNumeral (ds : List Byte) (v : Nat) : Prop :=
  ∃ vs : List Nat, vs ≠ [] ∧ ds.map digitValue = vs.map some ∧ vs.foldl (fun n d => n * 16 + d) 0 = v

/-- A line holds the number `v` in hexadecimal. -/
def ShowsHex (line : List Byte) (v : Nat) : Prop := ∃ ds, HexNumeral ds v ∧ ds <:+: line

/-- A line holds the character of a code that is a printable ASCII character (how another code is shown is open). -/
def ShowsCode (line : List Byte) (c : Byte) : Prop := 0x20 ≤ c.toNat → c.toNat ≤ 0x7E → c ∈ line

/-- What 42_header_codec.md R101 fixes of a field on its line; the title and reserved_2 are open. -/
def Shows (h : Header) (line : List Byte) : Config.Field → Prop
  | .cfgFlags => ShowsHex line h.cfgFlags.toNat
  | .clockRate => ShowsHex line h.clockRate.toNat
  | .bootAddress => ShowsHex line h.bootAddress.toNat
  | .luVersion => ShowsHex line h.luVersion.toNat
  | .crcHi => ShowsHex line h.crcHi.toNat
  | .crcLo => ShowsHex line h.crcLo.toNat
  | .reserved1 => ShowsHex line h.reserved1.toNat
  | .title => True
  | .reserved2 => True
  | .category => ShowsCode line h.category
  | .unique => ShowsCode line (h.unique.extractLsb' 8 8) ∧ ShowsCode line (h.unique.extractLsb' 0 8)
  | .destination => ShowsCode line h.destination
  | .version => ShowsHex line h.version.toNat

/-- A text of one line per field, the checksum pair on one line or two, in some order and with some terminator that stands in
no line (42_header_codec.md R101). -/
def RenderedAs (h : Header) (text : List Byte) : Prop :=
  ∃ (lines : List (List Config.Field × List Byte)) (ending last : List Byte),
    (lines.flatMap fun l => l.1).Perm [.cfgFlags, .clockRate, .bootAddress, .luVersion, .crcHi, .crcLo, .reserved1, .title,
      .reserved2, .category, .unique, .destination, .version] ∧
    (∀ l ∈ lines, l.1.length = 1 ∨ l.1.Perm [.crcHi, .crcLo]) ∧
    ending ≠ [] ∧ (last = ending ∨ last = []) ∧ text = ending.intercalate (lines.map fun l => l.2) ++ last ∧
    ∀ l ∈ lines, ¬ ending <:+: l.2 ∧ ∀ f ∈ l.1, Shows h l.2 f

/-- FAULTS with F_UNWRITTEN recorded and nothing else changed (60_exceptions.md R115). -/
def faultUnwritten (s : State) : State := { s with faults := { s.faults with unwritten := true } }

/-- The commands whose rule reads IMG or IMG_LEN before anything else can end them (20_memory.md R46, 43_image_buffer.md R103 to
R109). STORE is not among them: it reads IMG only after a draw that succeeds (R104). -/
def ReadsImage : Instr → Prop
  | .checksum => True
  | .hdecode => True
  | .hencode => False
  | .hrecomp => True
  | .hdefault => True
  | .hrender => False
  | .load => False
  | .store => False
  | .hoverwrite => True
  | .hprepend => True
  | .padTo _ => True
  | .padBy _ => True
  | .injectAt => True

end Sys2Proof.Claims

open Sys2Proof Sys2Proof.Machine Sys2Proof.Claims

/-! ### Encoding -/

/-- Decoder and encoder agree in both directions: a word decodes to a command exactly when it is that command's word
(30_encoding.md R66, R68, R69, R70). -/
def Obligations.DecodeEncodeAgree : Prop :=
  ∀ (w : Word) (i : Instr), decode w = .ok i ↔ encode i = w

/-- A word decodes to a command exactly when it matches that command's pattern, and no two patterns overlap
(30_encoding.md R69). -/
def Obligations.PatternsSelectCommands : Prop :=
  (∀ (w : Word) (i : Instr), decode w = .ok i ↔
    ∃ p ∈ patterns, p.Matches w ∧ i = p.command (w.extractLsb' 8 8)) ∧
  patterns.Pairwise (fun p q => ∀ w, ¬ (p.Matches w ∧ q.Matches w))

/-- The reserved words of 30_encoding.md R71 are exactly the words that spell no command; HOST's write of one to CMD sets
REFUSED and changes nothing else, STATUS included. -/
def Obligations.ReservedWordsRefused : Prop :=
  (∀ w : Word, Reserved w ↔ ∀ i, decode w ≠ .ok i) ∧
  ∀ (s : State) (ops : List HostOp) (w : Word), s.eng = .idle → s.hostOps = .write 0x00 (.num w.toNat) :: ops →
    Reserved w → step s = .next { s with hostOps := ops, refused := true }

/-- Words written out from 30_encoding.md R66 and R68, one of each family, and the reserved words of
95_test_vectors.md section 2.7. -/
def Obligations.SampleWordsDecode : Prop :=
  decode 0b00000000000000000000000000000001#32 = .ok .checksum ∧
  decode 0b00000000000000000000000000000011#32 = .ok .hencode ∧
  decode 0b00000000000000000000000000010000#32 = .ok .load ∧
  decode 0b00000000000000001111111100010100#32 = .ok (.padTo 0xFF#8) ∧
  decode 0b00000000000000000000000000010110#32 = .ok .injectAt ∧
  decode 0x00000000#32 = .error .reservedOpcode ∧
  decode 0x00010001#32 = .error .reservedBits ∧
  decode 0x00000101#32 = .error .fillNotZero ∧
  decode 0x00000017#32 = .error .reservedOpcode

/-! ### The step and HOST's operations -/

/-- While ENGINE is IDLE and HOST's next operation writes a word to CMD that decodes to `i`, a step is `exec i` after that
operation is taken; where the parameters ask for word steps and `i` runs ChecksumFn, the step starts a run instead
(30_encoding.md R70, 41_checksum_engine.md R89). -/
def Obligations.StepRunsDecodedCommand : Prop :=
  ∀ (s : State) (ops : List HostOp) (w : Word) (i : Instr), s.eng = .idle →
    s.hostOps = .write 0x00 (.num w.toNat) :: ops → decode w = .ok i →
    (s.params.grain = .atomic ∨ runCmd i = none → step s = exec i { s with hostOps := ops }) ∧
    (∀ c, s.params.grain = .wordSteps → runCmd i = some c → step s = .next (startRun c { s with hostOps := ops }))

/-- The word that `withFetchWord` places is the word the next step takes. -/
def Obligations.PlacedWordRunsNext : Prop :=
  ∀ (s : State) (w : Word) (i : Instr), s.params.grain = .atomic → decode w = .ok i →
    decodeTableWord 32 w.toNat = some i ∧ step (s.withFetchWord 32 w.toNat) = exec i { s with eng := .idle }

/-- HostWrite (10_state.md R20, R21, R32): an admitted write sets the field of its register and nothing else; any other write
is refused and has no effect. For CMD only what is no 32-bit number is refused here; the command's own rule says the rest.
That a value of the wrong kind does not fit, and that a number of more than 32 bits is no command word, is the model's
reading (DEDUCED, notes/assumptions/14.md, 15.md). -/
def Obligations.HostWriteSetsOneRegister : Prop :=
  ∀ (s : State) (r : Nat) (v : HostVal),
    (s.eng = .idle → ∀ t, RegisterWrite s r v t → hostWrite r v s = .next t) ∧
    (s.eng = .idle → r ≠ 0x00 → (∀ t, ¬ RegisterWrite s r v t) → hostWrite r v s = .next { s with refused := true }) ∧
    (s.eng = .idle → r = 0x00 → (∀ n, v = .num n → 2 ^ 32 ≤ n) → hostWrite r v s = .next { s with refused := true }) ∧
    (s.eng ≠ .idle → hostWrite r v s = .next { s with refused := true })

/-- HostRead (10_state.md R20, R22, R32): the value of the register's own field, F_UNWRITTEN for an unwritten register, and a
refusal for CMD, for a reserved number and while ENGINE is not IDLE. -/
def Obligations.HostReadReturnsRegister : Prop :=
  ∀ (s : State) (r : Nat),
    (s.eng = .idle → ∀ v, (r, some v) ∈ readable s → hostRead r s = { s with replies := s.replies ++ [v] }) ∧
    (s.eng = .idle → (r, none) ∈ readable s → hostRead r s = faultUnwritten s) ∧
    (s.eng = .idle → (r = 0x00 ∨ ReservedRegister r) → hostRead r s = { s with refused := true }) ∧
    (s.eng ≠ .idle → hostRead r s = { s with refused := true })

/-- Register numbers 0x06, 0x07, 0x0B to 0x0F and 0x1D and up are reserved, and HostWrite or HostRead of one is refused
(10_state.md R20, R31). -/
def Obligations.ReservedRegistersRefused : Prop :=
  ∀ (s : State) (r : Nat) (v : HostVal), ReservedRegister r →
    hostWrite r v s = .next { s with refused := true } ∧ hostRead r s = { s with refused := true }

/-- HostReadImg(a, n) returns IMG[a..a+n) when it lies in IMG and ENGINE is IDLE, and is refused otherwise; HOST's writes
of registers other than CMD never change IMG (20_memory.md R45). -/
def Obligations.HostReadImgReturnsBytes : Prop :=
  (∀ (s : State) (m : Memory) (a n : Nat), s.img = some m →
    (s.eng = .idle → a + n ≤ m.len →
      ∃ b, hostReadImg a n s = { s with replies := s.replies ++ [.bytes b] } ∧ b.length = n ∧
        ∀ k, k < n → b[k]? = some (m.byte (a + k))) ∧
    (s.eng = .idle → m.len < a + n → hostReadImg a n s = { s with refused := true }) ∧
    (s.eng ≠ .idle → hostReadImg a n s = { s with refused := true })) ∧
  (∀ (s t : State) (r : Nat) (v : HostVal), r ≠ 0x00 → hostWrite r v s = .next t → t.img = s.img)

/-- While ENG is not IDLE a step is ENGINE's alone: HOST's operations, what HOST has read, its environment, IMG, the operand
registers and HBUF stay (10_state.md R17, 20_memory.md R54). -/
def Obligations.RunningEngineBlocksHost : Prop :=
  ∀ (s t : State), s.eng ≠ .idle → step s = .next t →
    t.hostOps = s.hostOps ∧ t.replies = s.replies ∧ t.srcDraws = s.srcDraws ∧ t.snkDraws = s.snkDraws ∧
    t.ioCount = s.ioCount ∧ t.snk = s.snk ∧ t.img = s.img ∧ t.arg0 = s.arg0 ∧ t.dbuf = s.dbuf ∧ t.hbuf = s.hbuf ∧
    t.rtxt = s.rtxt ∧ t.refused = s.refused

/-! ### The checksum engine -/

/-- All six accumulators are seeded to INITIAL = 0xF8CA4DDC (41_checksum_engine.md R77, 95_test_vectors.md L1-1). -/
def Obligations.SeedIsInitial : Prop :=
  Acc.seed = { roll := 0xF8CA4DDC#32, carry := 0xF8CA4DDC#32, xor := 0xF8CA4DDC#32, rot := 0xF8CA4DDC#32,
               aux := 0xF8CA4DDC#32, wsum := 0xF8CA4DDC#32 } ∧
  (0x3F * 0x5D588B65 % 2 ^ 32 + 1) % 2 ^ 32 = 0xF8CA4DDC

/-- `rot(w)` is the left rotation of `w` by `w[4:0]` places, and `w` itself when those bits are 0
(41_checksum_engine.md R79). -/
def Obligations.RotIsRotateLeft : Prop :=
  ∀ w : Word, rotWord w = w.rotateLeft (w.toNat % 32) ∧ (w.toNat % 32 = 0 → rotWord w = w)

/-- The word step, line by line, in integer arithmetic modulo 2^32 (41_checksum_engine.md R80, with the values R81 names). -/
def Obligations.WordStepLines : Prop :=
  ∀ (tie : Config.AuxTie) (acc : Acc) (w : Word),
    (wordStep tie acc w).roll.toNat = (acc.roll.toNat + w.toNat) % 2 ^ 32 ∧
    (wordStep tie acc w).carry.toNat =
      (if (acc.roll.toNat + w.toNat) % 2 ^ 32 < acc.roll.toNat then (acc.carry.toNat + 1) % 2 ^ 32 else acc.carry.toNat) ∧
    (wordStep tie acc w).rot.toNat = (acc.rot.toNat + (w.rotateLeft (w.toNat % 32)).toNat) % 2 ^ 32 ∧
    (wordStep tie acc w).xor = acc.xor ^^^ w ∧
    (wordStep tie acc w).aux =
      (if acc.aux.toNat < w.toNat ∨ (tie = .orig ∧ acc.aux = w) then acc.aux ^^^ ((wordStep tie acc w).roll ^^^ w)
       else acc.aux ^^^ w.rotateLeft (w.toNat % 32)) ∧
    (wordStep tie acc w).wsum.toNat = (acc.wsum.toNat + (w ^^^ (wordStep tie acc w).rot).toNat) % 2 ^ 32

/-- A carry happens exactly when the integer sum reaches 2^32, never for the word 0, at most one a word; over a run of up to
0x40000 words from the seed ACC_CARRY gains at most one a word and never wraps (41_checksum_engine.md R82). -/
def Obligations.CarryCountsOverflows : Prop :=
  (∀ roll w : Word, carries (roll + w) roll = true ↔ 2 ^ 32 ≤ roll.toNat + w.toNat) ∧
  (∀ (tie : Config.AuxTie) (acc : Acc) (w : Word), (wordStep tie acc w).carry =
    if 2 ^ 32 ≤ acc.roll.toNat + w.toNat then acc.carry + 1#32 else acc.carry) ∧
  (∀ (tie : Config.AuxTie) (acc : Acc), (wordStep tie acc 0#32).carry = acc.carry) ∧
  (∀ (tie : Config.AuxTie) (m : Memory) (a n : Nat), n ≤ 0x40000 →
    0xF8CA4DDC ≤ (windowLoop tie m a Acc.seed n).carry.toNat ∧
    (windowLoop tie m a Acc.seed n).carry.toNat ≤ 0xF8CA4DDC + n ∧
    (windowLoop tie m a Acc.seed n).carry.toNat ≤ 0xF8CE4DDC)

/-- The ACC_AUX select under both settings of P_AUX_TIE: they agree but for ACC_AUX = w, where DOC takes the rotated word and
ORIG takes `new_sum ^ w` (41_checksum_engine.md R83). -/
def Obligations.AuxTieBranches : Prop :=
  (∀ a w : Word, (auxSelect .doc a w = true ↔ a.toNat < w.toNat) ∧
    (auxSelect .orig a w = true ↔ a.toNat < w.toNat ∨ a = w)) ∧
  (∀ (acc : Acc) (w : Word), acc.aux ≠ w → wordStep .doc acc w = wordStep .orig acc w) ∧
  (∀ (acc : Acc) (w : Word), acc.aux = w →
    (wordStep .doc acc w).aux = acc.aux ^^^ rotWord w ∧
    (wordStep .orig acc w).aux = acc.aux ^^^ ((acc.roll + w) ^^^ w))

/-- InsufficientData exactly when IMG_LEN < 0x101000; otherwise the pair of the 0x40000 big-endian words from 0x1000 on, in
rising order (41_checksum_engine.md R76, R78, R84; 20_memory.md R48). -/
def Obligations.ChecksumFoldsWindow : Prop :=
  ∀ (tie : Config.AuxTie) (m : Memory),
    (m.len < 0x101000 → checksumFn tie m = none) ∧
    (0x101000 ≤ m.len → checksumFn tie m = some (pairOf tie (wordsFrom m 0x1000)))

/-- Two images that are long enough and agree on the window have the same pair (41_checksum_engine.md R87). -/
def Obligations.ChecksumReadsWindowOnly : Prop :=
  ∀ (tie : Config.AuxTie) (m m' : Memory), 0x101000 ≤ m.len → 0x101000 ≤ m'.len →
    (∀ a, 0x1000 ≤ a → a < 0x101000 → m.byte a = m'.byte a) → checksumFn tie m = checksumFn tie m'

/-- A window of all zero bytes gives (0xF8CA4DDC, 0x303A4DDC) under either tie (41_checksum_engine.md R88, corner cases;
95_test_vectors.md D-CK1). -/
def Obligations.ZeroWindowPair : Prop :=
  ∀ (tie : Config.AuxTie) (m : Memory), 0x101000 ≤ m.len → (∀ a, 0x1000 ≤ a → a < 0x101000 → m.byte a = 0x00#8) →
    checksumFn tie m = some (0xF8CA4DDC#32, 0x303A4DDC#32)

/-- CHECKSUM completes for every image (41_checksum_engine.md R88): with the pair in CK_HI and CK_LO, or with STATUS 0x01
and nothing else changed. -/
def Obligations.ChecksumCommandCompletes : Prop :=
  ∀ (s : State) (m : Memory), s.img = some m →
    (0x101000 ≤ m.len → exec .checksum s = .next { s with
      ckHi := some (pairOf s.params.auxTie (wordsFrom m 0x1000)).1
      ckLo := some (pairOf s.params.auxTie (wordsFrom m 0x1000)).2
      status := some 0x00#8 }) ∧
    (m.len < 0x101000 → exec .checksum s = .next { s with status := some 0x01#8 })

/-- A second CHECKSUM directly after the first changes nothing (41_checksum_engine.md R86, 95_test_vectors.md L1-3). -/
def Obligations.ChecksumTwiceSame : Prop :=
  ∀ s t : State, exec .checksum s = .next t → exec .checksum t = .next t

/-- The word-step decomposition (41_checksum_engine.md R89): from SEED, after one step and `k` LOOP steps ENGINE holds the
accumulators of the first `k` words and WPTR = 0x1000 + 4k; after 0x40000 LOOP steps, the move to FOLD and the FOLD step the
end state is that of the one-transition reading. With a short image the run does not start and the outcome is the same. -/
def Obligations.WordStepsEqualOneTransition : Prop :=
  ∀ (s : State) (m : Memory) (i : Instr) (c : RunCmd), s.eng = .idle → s.img = some m → runCmd i = some c →
    (m.len < 0x101000 → .next (startRun c s) = exec i s) ∧
    (0x101000 ≤ m.len →
      startRun c s = { s with eng := .seed c } ∧
      (∀ k, k ≤ 0x40000 → Sys2Proof.core.run (k + 1) (startRun c s) = .next { s with
        eng := .loop c (windowLoop s.params.auxTie m 0x1000 Acc.seed k) (0x1000 + 4 * k) }) ∧
      Sys2Proof.core.run (0x40000 + 3) (startRun c s) = exec i s)

/-! ### The header codec -/

/-- HDECODE completes for every image (42_header_codec.md R94, R96): TruncatedHeader first, then InvalidTitleEncoding, else all
thirteen fields of the layout. -/
def Obligations.HdecodeCommandCompletes : Prop :=
  ∀ (s : State) (m : Memory), s.img = some m →
    (m.len < 64 → exec .hdecode s = .next { s with status := some 0x02#8 }) ∧
    (64 ≤ m.len → titleOk s.params ((List.range 20).map fun k => m.byte (0x20 + k)) = false →
      exec .hdecode s = .next { s with status := some 0x03#8 }) ∧
    (64 ≤ m.len → titleOk s.params ((List.range 20).map fun k => m.byte (0x20 + k)) = true →
      exec .hdecode s = .next { s with
        status := some 0x00#8
        hreg :=
          { cfgFlags := some (BitVec.ofNat 32 (beAt m 0x00 4))
            clockRate := some (BitVec.ofNat 32 (beAt m 0x04 4))
            bootAddress := some (BitVec.ofNat 32 (beAt m 0x08 4))
            luVersion := some (BitVec.ofNat 32 (beAt m 0x0C 4))
            crcHi := some (BitVec.ofNat 32 (beAt m 0x10 4))
            crcLo := some (BitVec.ofNat 32 (beAt m 0x14 4))
            reserved1 := some (BitVec.ofNat 64 (beAt m 0x18 8))
            title := some ((List.range 20).map fun k => m.byte (0x20 + k))
            reserved2 := some (BitVec.ofNat 56 (beAt m 0x34 7))
            category := some (m.byte 0x3B)
            unique := some (BitVec.ofNat 16 ((m.byte 0x3C).toNat * 256 + (m.byte 0x3D).toNat))
            destination := some (m.byte 0x3E)
            version := some (m.byte 0x3F) } })

/-- HENCODE completes for every fully written HREG: HBUF is the header in the layout of 42_header_codec.md R90, and nothing
else changes (R97). -/
def Obligations.HencodeCommandCompletes : Prop :=
  ∀ (s : State) (h : Header), s.hreg.full = some h →
    ∃ b : Vector Byte 64, exec .hencode s = .next { s with hbuf := some b, status := some 0x00#8 } ∧
      be (slice b.toList 0x00 4) = h.cfgFlags.toNat ∧ be (slice b.toList 0x04 4) = h.clockRate.toNat ∧
      be (slice b.toList 0x08 4) = h.bootAddress.toNat ∧ be (slice b.toList 0x0C 4) = h.luVersion.toNat ∧
      be (slice b.toList 0x10 4) = h.crcHi.toNat ∧ be (slice b.toList 0x14 4) = h.crcLo.toNat ∧
      be (slice b.toList 0x18 8) = h.reserved1.toNat ∧
      slice b.toList 0x20 20 = normTitle s.params.titleTrunc h.title ∧
      be (slice b.toList 0x34 7) = h.reserved2.toNat ∧ slice b.toList 0x3B 1 = [h.category] ∧
      be (slice b.toList 0x3C 2) = h.unique.toNat ∧ slice b.toList 0x3E 1 = [h.destination] ∧
      slice b.toList 0x3F 1 = [h.version]

/-- "encoded header is always exactly 64 bytes" (42_header_codec.md R98), so HENCODE never records F_LAYOUT. -/
def Obligations.EncodedHeaderIsSixtyFourBytes : Prop :=
  (∀ (trunc : Config.TitleTrunc) (h : Header), (encodeHeader trunc h).length = 64) ∧
  (∀ s t : State, exec .hencode s = .next t → t.faults.layout = s.faults.layout)

/-- HRECOMP completes for every image (42_header_codec.md R99). -/
def Obligations.HrecompCommandCompletes : Prop :=
  ∀ (s : State) (m : Memory), s.img = some m →
    (0x101000 ≤ m.len → exec .hrecomp s = .next { s with
      hreg := { s.hreg with
        crcHi := some (pairOf s.params.auxTie (wordsFrom m 0x1000)).1
        crcLo := some (pairOf s.params.auxTie (wordsFrom m 0x1000)).2 }
      ckHi := some (pairOf s.params.auxTie (wordsFrom m 0x1000)).1
      ckLo := some (pairOf s.params.auxTie (wordsFrom m 0x1000)).2
      status := some 0x00#8 }) ∧
    (m.len < 0x101000 → exec .hrecomp s = .next { s with status := some 0x01#8 })

/-- HDEFAULT completes for every image (42_header_codec.md R100): the five defaults of the source, P_DEFAULTS for the other
six fields, and the computed pair. -/
def Obligations.HdefaultCommandCompletes : Prop :=
  ∀ (s : State) (m : Memory), s.img = some m →
    (0x101000 ≤ m.len → exec .hdefault s = .next { s with
      hreg :=
        { cfgFlags := some 0x80371240#32, clockRate := some 0x0000000F#32, bootAddress := some 0x80010000#32
          luVersion := some s.params.defaults.luVersion
          crcHi := some (pairOf s.params.auxTie (wordsFrom m 0x1000)).1
          crcLo := some (pairOf s.params.auxTie (wordsFrom m 0x1000)).2
          reserved1 := some s.params.defaults.reserved1, title := some s.params.defaults.title
          reserved2 := some s.params.defaults.reserved2, category := some 0x4E#8
          unique := some s.params.defaults.unique, destination := some 0x41#8
          version := some s.params.defaults.version }
      ckHi := some (pairOf s.params.auxTie (wordsFrom m 0x1000)).1
      ckLo := some (pairOf s.params.auxTie (wordsFrom m 0x1000)).2
      status := some 0x00#8 }) ∧
    (m.len < 0x101000 → exec .hdefault s = .next { s with status := some 0x01#8 })

/-- HRENDER completes for every fully written HREG: RTXT is P_RENDER of it, a function of the header whose open choices are
free (42_header_codec.md R101, notes/assumptions/7.md). -/
def Obligations.HrenderCommandCompletes : Prop :=
  ∀ (s : State) (h : Header), s.hreg.full = some h →
    exec .hrender s = .next { s with rtxt := some (renderText h), status := some 0x00#8 }

/-- NormTitle returns exactly 20 bytes: the title padded with 0x00, or its first 20 bytes, or, under CHAR_BOUNDARY, the title up
to the highest index at most 20 that holds no continuation byte, padded (42_header_codec.md R92). -/
def Obligations.NormTitleIsTwentyBytes : Prop :=
  ∀ t : List Byte,
    (∀ trunc, (normTitle trunc t).length = 20) ∧
    (∀ trunc, t.length ≤ 20 → normTitle trunc t = t ++ List.replicate (20 - t.length) 0x00#8) ∧
    (20 < t.length → normTitle .byte t = t.take 20) ∧
    (20 < t.length → ∃ n, n ≤ 20 ∧ normTitle .charBoundary t = t.take n ++ List.replicate (20 - n) 0x00#8 ∧
      (n = 0 ∨ t.getD n 0#8 &&& 0xC0#8 ≠ 0x80#8) ∧ ∀ k, n < k → k ≤ 20 → t.getD k 0#8 &&& 0xC0#8 = 0x80#8)

/-- Under CHAR_BOUNDARY valid UTF-8 stays valid UTF-8 after normalisation: no character is cut (42_header_codec.md R92,
90_conflicts.md C5, 70_reset_and_hazards.md R131). -/
def Obligations.CharBoundaryKeepsTextValid : Prop :=
  ∀ t : List Byte, utf8Valid t = true → utf8Valid (normTitle .charBoundary t) = true

/-- The default P_TITLE_VALID holds exactly of the concatenations of the sequences of 42_header_codec.md R93. -/
def Obligations.UtfEightIsSequences : Prop :=
  ∀ (p : Config.Params) (t : List Byte), p.titleCheck = .utf8 →
    (titleOk p t = true ↔ ∃ seqs : List (List Byte), t = seqs.flatten ∧ ∀ q ∈ seqs, Utf8Sequence q)

/-- The round trip of 42_header_codec.md R102, in both directions, through the commands themselves. -/
def Obligations.HeaderRoundTrip : Prop :=
  (∀ (s : State) (h : Header) (m : Memory), s.hreg.full = some h → s.img = some m → m.wf → 64 ≤ m.len →
    titleOk s.params (normTitle s.params.titleTrunc h.title) = true →
    ∃ s1 s2 s3, exec .hencode s = .next s1 ∧ exec .hoverwrite s1 = .next s2 ∧ exec .hdecode s2 = .next s3 ∧
      s3.hreg.full = some { h with title := normTitle s.params.titleTrunc h.title }) ∧
  (∀ (s : State) (m : Memory), s.img = some m → 64 ≤ m.len →
    titleOk s.params ((List.range 20).map fun k => m.byte (0x20 + k)) = true →
    ∃ s1 s2 b, exec .hdecode s = .next s1 ∧ exec .hencode s1 = .next s2 ∧ s2.hbuf = some b ∧
      b.toList = (List.range 64).map m.byte)

/-! ### The image buffer -/

/-- LOAD (43_image_buffer.md R103), for the draw it takes, fixed in advance or free: the source's bytes become IMG; a failure
leaves IMG unwritten and gives ReadError; a source past P_IMG_MAX is refused. With P_IMG_MAX unbounded LOAD completes
whatever the draw gives. -/
def Obligations.LoadCommandCompletes : Prop :=
  ∀ (s : State),
    (∀ src, s.drawLoad.1 = .bytes src → pastImgMax s.params src.length = false →
      ∃ m, exec .load s = .next { s.drawLoad.2 with img := some m, status := some 0x00#8 } ∧ m.len = src.length ∧ m.wf ∧
        ∀ k, k < src.length → some (m.byte k) = src[k]?) ∧
    (∀ src, s.drawLoad.1 = .bytes src → pastImgMax s.params src.length = true →
      exec .load s = .next { s.drawLoad.2 with refused := true }) ∧
    (s.drawLoad.1 = .readFail → exec .load s = .next { s.drawLoad.2 with img := none, status := some 0x05#8 }) ∧
    (s.params.imgMax = none → ∃ t, exec .load s = .next t ∧ (t.status = some 0x00#8 ∨ t.status = some 0x05#8) ∧
      t.faults = s.faults ∧ t.refused = s.refused)

/-- STORE (43_image_buffer.md R104), for the draw it takes: with IMG written SNK receives exactly IMG; a failure leaves any bytes
in SNK and gives WriteError, whether IMG is written or not (60_exceptions.md R117); with IMG unwritten a draw that succeeds
ends in F_UNWRITTEN. IMG is not changed, and with IMG written STORE completes whatever the draw gives. That SNK then holds
nothing of an earlier STORE, and that a STORE that faults has taken its draw, is the model's choice
(notes/assumptions/5.md, 11.md). -/
def Obligations.StoreCommandCompletes : Prop :=
  ∀ s : State,
    (∀ m, s.img = some m → s.drawStore.1 = .ok → exec .store s = .next { s.drawStore.2 with
      snk := (List.range m.len).map m.byte, status := some 0x00#8 }) ∧
    (∀ sunk, s.drawStore.1 = .writeFail sunk →
      exec .store s = .next { s.drawStore.2 with snk := sunk, status := some 0x06#8 }) ∧
    (s.img = none → s.drawStore.1 = .ok → exec .store s = .next (faultUnwritten s.drawStore.2)) ∧
    (∀ m, s.img = some m → ∃ t, exec .store s = .next t ∧ (t.status = some 0x00#8 ∨ t.status = some 0x06#8) ∧ t.img = some m ∧
      t.faults = s.faults ∧ t.refused = s.refused)

/-- HOVERWRITE (43_image_buffer.md R105): the first 64 bytes become HBUF, every other byte, the length and the checksum pair stay;
a short image records F_SHORT_OVERWRITE and nothing else. -/
def Obligations.HoverwriteCommandCompletes : Prop :=
  ∀ (s : State) (m : Memory), s.img = some m →
    (∀ b : Vector Byte 64, s.hbuf = some b → 64 ≤ m.len → m.wf →
      ∃ m', exec .hoverwrite s = .next { s with img := some m', status := some 0x00#8 } ∧ m'.len = m.len ∧ m'.wf ∧
        (∀ a, a < 64 → some (m'.byte a) = b.toList[a]?) ∧ (∀ a, 64 ≤ a → m'.byte a = m.byte a) ∧
        ∀ tie, checksumFn tie m' = checksumFn tie m) ∧
    (m.len < 64 → exec .hoverwrite s = .next { s with faults := { s.faults with shortOverwrite := true } })

/-- HPREPEND (43_image_buffer.md R106): IMG grows by exactly 64 bytes, HBUF stands in front and every old byte moves up by 64;
growth past P_IMG_MAX is refused. -/
def Obligations.HprependCommandCompletes : Prop :=
  ∀ (s : State) (m : Memory), s.img = some m →
    (∀ b : Vector Byte 64, s.hbuf = some b → pastImgMax s.params (m.len + 64) = false → m.wf →
      ∃ m', exec .hprepend s = .next { s with img := some m', status := some 0x00#8 } ∧ m'.len = m.len + 64 ∧ m'.wf ∧
        (∀ a, a < 64 → some (m'.byte a) = b.toList[a]?) ∧ ∀ a, m'.byte (a + 64) = m.byte a) ∧
    (pastImgMax s.params (m.len + 64) = true → exec .hprepend s = .next { s with refused := true })

/-- PAD_TO fill (43_image_buffer.md R107): IMG grows to ARG0 with fill bytes; at or beyond the target nothing changes but STATUS;
growth past P_IMG_MAX is refused. -/
def Obligations.PadToCommandCompletes : Prop :=
  ∀ (s : State) (m : Memory) (fill : Byte) (target : Nat), s.img = some m → s.arg0 = some target →
    (m.len < target → pastImgMax s.params target = false → m.wf →
      ∃ m', exec (.padTo fill) s = .next { s with img := some m', status := some 0x00#8 } ∧ m'.len = target ∧ m'.wf ∧
        (∀ a, a < m.len → m'.byte a = m.byte a) ∧ ∀ a, m.len ≤ a → a < target → m'.byte a = fill) ∧
    (m.len < target → pastImgMax s.params target = true → exec (.padTo fill) s = .next { s with refused := true }) ∧
    (target ≤ m.len → exec (.padTo fill) s = .next { s with status := some 0x00#8 })

/-- PAD_BY fill (43_image_buffer.md R108): exactly ARG0 fill bytes are appended; growth past P_IMG_MAX is refused. -/
def Obligations.PadByCommandCompletes : Prop :=
  ∀ (s : State) (m : Memory) (fill : Byte) (count : Nat), s.img = some m → s.arg0 = some count →
    (pastImgMax s.params (m.len + count) = false → m.wf →
      ∃ m', exec (.padBy fill) s = .next { s with img := some m', status := some 0x00#8 } ∧ m'.len = m.len + count ∧
        m'.wf ∧ (∀ a, a < m.len → m'.byte a = m.byte a) ∧
        ∀ a, m.len ≤ a → a < m.len + count → m'.byte a = fill) ∧
    (pastImgMax s.params (m.len + count) = true → exec (.padBy fill) s = .next { s with refused := true })

/-- INJECT_AT (43_image_buffer.md R109): DBUF stands at ARG0, a gap above the old end holds P_INJECT_FILL, every byte outside
`[offset, offset + len(DBUF))` that was there keeps its value; growth past P_IMG_MAX is refused. -/
def Obligations.InjectAtCommandCompletes : Prop :=
  ∀ (s : State) (m : Memory) (offset : Nat) (data : List Byte), s.img = some m → s.arg0 = some offset →
    s.dbuf = some data →
    ((offset + data.length ≤ m.len ∨ pastImgMax s.params (offset + data.length) = false) → m.wf →
      ∃ m', exec .injectAt s = .next { s with img := some m', status := some 0x00#8 } ∧
        m'.len = max m.len (offset + data.length) ∧ m'.wf ∧
        (∀ k, k < data.length → some (m'.byte (offset + k)) = data[k]?) ∧
        (∀ a, a < m.len → (a < offset ∨ offset + data.length ≤ a) → m'.byte a = m.byte a) ∧
        ∀ a, m.len ≤ a → a < offset → m'.byte a = s.params.injectFill) ∧
    (m.len < offset + data.length → pastImgMax s.params (offset + data.length) = true →
      exec .injectAt s = .next { s with refused := true })

/-- The length laws of 43_image_buffer.md R110, for commands that complete (no mark is set after them). -/
def Obligations.ImageLengthLaws : Prop :=
  ∀ (s t : State) (m : Memory) (i : Instr), s.img = some m → exec i s = .next t → t.Clean →
    (i = .hoverwrite → t.img.map (fun m' => m'.len) = some m.len) ∧
    (i = .hprepend → t.img.map (fun m' => m'.len) = some (m.len + 64)) ∧
    (∀ fill target, i = .padTo fill → s.arg0 = some target →
      t.img.map (fun m' => m'.len) = some (max m.len target)) ∧
    (∀ fill count, i = .padBy fill → s.arg0 = some count → t.img.map (fun m' => m'.len) = some (m.len + count)) ∧
    (∀ offset data, i = .injectAt → s.arg0 = some offset → s.dbuf = some data →
      t.img.map (fun m' => m'.len) = some (max m.len (offset + data.length))) ∧
    (∀ src, i = .load → s.drawLoad.1 = .bytes src → t.img.map (fun m' => m'.len) = some src.length) ∧
    (i ≠ .load → ∃ m', t.img = some m' ∧ m.len ≤ m'.len)

/-- Header before checksum (70_reset_and_hazards.md R127, 43_image_buffer.md R106): after 64 bytes are put in front, the window
holds the words that stood from 0xFC0 on, whatever the 64 bytes are. -/
def Obligations.PrependMovesWindow : Prop :=
  ∀ (tie : Config.AuxTie) (m : Memory) (b : Vector Byte 64), 0x100FC0 ≤ m.len →
    checksumFn tie (m.prepend b.toList) = some (pairOf tie (wordsFrom m 0xFC0))

/-- Canonical memory: two images in canonical form with the same length and the same bytes are equal data
(20_memory.md R43). -/
def Obligations.EqualImagesAreEqualData : Prop :=
  ∀ m m' : Memory, m.wf → m'.wf → m.len = m'.len → (∀ a, a < m.len → m.byte a = m'.byte a) → m = m'

/-! ### Errors, faults, frames, reset, the invariant -/

/-- A command that raises an error writes STATUS and nothing else, but for ReadError and WriteError (60_exceptions.md R113). -/
def Obligations.ErrorsWriteStatusOnly : Prop :=
  ∀ (i : Instr) (s t : State) (code : Byte), exec i s = .next t → t.Clean → t.status = some code → code ≠ 0x00#8 →
    (i ≠ .load → i ≠ .store → t = { s with status := some code }) ∧
    (i = .load → t = { s.drawLoad.2 with img := none, status := some 0x05#8 }) ∧
    (i = .store → ∃ sunk, t = { s.drawStore.2 with snk := sunk, status := some 0x06#8 })

/-- Every command that completes writes STATUS, with a code of 60_exceptions.md R111 other than the unreachable 0x04, and the
old STATUS has no part in what it does (10_state.md R24). -/
def Obligations.CompletionWritesStatus : Prop :=
  ∀ (i : Instr) (s t : State), exec i s = .next t → t.Clean →
    (∃ code, t.status = some code ∧ code.toNat ≤ 6 ∧ code.toNat ≠ 4) ∧
    ∀ old, exec i { s with status := old } = .next t

/-- Each code of STATUS has the commands and the cause that 60_exceptions.md R111 gives it; 0x04 and 0x07 to 0xFF are never
written. -/
def Obligations.ErrorCodesHaveCauses : Prop :=
  ∀ (i : Instr) (s t : State) (code : Byte), exec i s = .next t → t.Clean → t.status = some code →
    (code = 0x01#8 → (i = .checksum ∨ i = .hrecomp ∨ i = .hdefault) ∧ ∃ m, s.img = some m ∧ m.len < 0x101000) ∧
    (code = 0x02#8 → i = .hdecode ∧ ∃ m, s.img = some m ∧ m.len < 64) ∧
    (code = 0x03#8 → i = .hdecode ∧ ∃ m, s.img = some m ∧ 64 ≤ m.len ∧
      titleOk s.params ((List.range 20).map fun k => m.byte (0x20 + k)) = false) ∧
    (code = 0x05#8 → i = .load ∧ s.drawLoad.1 = .readFail) ∧
    (code = 0x06#8 → i = .store ∧ ∃ sunk, s.drawStore.1 = .writeFail sunk) ∧
    code.toNat ≤ 6 ∧ code ≠ 0x04#8

/-- A command that records a fault, or is refused, changes nothing but the mark; a refused LOAD and a faulting STORE have taken
their draw (60_exceptions.md R115, R116). That they have is the model's choice (notes/assumptions/12.md, 11.md). -/
def Obligations.FaultsAndRefusalsChangeNothing : Prop :=
  ∀ (i : Instr) (s t : State), exec i s = .next t →
    (t.faults ≠ s.faults → i ≠ .store → t = { s with faults := t.faults }) ∧
    (t.faults ≠ s.faults → i = .store → t = { s.drawStore.2 with faults := t.faults }) ∧
    (s.refused = false → t.refused = true → i ≠ .load → t = { s with refused := true }) ∧
    (s.refused = false → t.refused = true → i = .load → t = { s.drawLoad.2 with refused := true })

/-- A command that reads an unwritten element records F_UNWRITTEN, does not complete and changes nothing else
(10_state.md R40, 60_exceptions.md R115, 70_reset_and_hazards.md R126). STORE reads IMG only when its draw succeeds
(43_image_buffer.md R104); that it has then taken the draw is the model's choice (notes/assumptions/11.md). -/
def Obligations.UnwrittenOperandsFault : Prop :=
  ∀ s : State,
    (s.img = none → ∀ i, ReadsImage i → exec i s = .next (faultUnwritten s)) ∧
    (s.img = none → s.drawStore.1 = .ok → exec .store s = .next (faultUnwritten s.drawStore.2)) ∧
    (s.hreg.full = none → exec .hencode s = .next (faultUnwritten s) ∧ exec .hrender s = .next (faultUnwritten s)) ∧
    (s.hbuf = none → ∀ m, s.img = some m →
      (64 ≤ m.len → exec .hoverwrite s = .next (faultUnwritten s)) ∧
      (pastImgMax s.params (m.len + 64) = false → exec .hprepend s = .next (faultUnwritten s))) ∧
    (s.arg0 = none → ∀ fill, exec (.padTo fill) s = .next (faultUnwritten s) ∧
      exec (.padBy fill) s = .next (faultUnwritten s) ∧ exec .injectAt s = .next (faultUnwritten s)) ∧
    (s.dbuf = none → exec .injectAt s = .next (faultUnwritten s))

/-- What no command writes, and what only the named commands write (10_state.md R20, column "written by commands";
20_memory.md R46): the frame of every command. -/
def Obligations.CommandsWriteOnlyTheirRegisters : Prop :=
  ∀ (i : Instr) (s t : State), exec i s = .next t →
    t.arg0 = s.arg0 ∧ t.dbuf = s.dbuf ∧ t.eng = s.eng ∧ t.params = s.params ∧ t.hostOps = s.hostOps ∧
    t.replies = s.replies ∧
    (i ≠ .hdecode → i ≠ .hrecomp → i ≠ .hdefault → t.hreg = s.hreg) ∧
    (i = .hrecomp → { t.hreg with crcHi := s.hreg.crcHi, crcLo := s.hreg.crcLo } = s.hreg) ∧
    (i ≠ .hencode → t.hbuf = s.hbuf) ∧ (i ≠ .hrender → t.rtxt = s.rtxt) ∧
    (i ≠ .checksum → i ≠ .hrecomp → i ≠ .hdefault → t.ckHi = s.ckHi ∧ t.ckLo = s.ckLo) ∧
    ((i = .checksum ∨ i = .hdecode ∨ i = .hencode ∨ i = .hrecomp ∨ i = .hdefault ∨ i = .hrender ∨ i = .store) →
      t.img = s.img) ∧
    (i ≠ .load → t.srcDraws = s.srcDraws) ∧ (i ≠ .store → t.snkDraws = s.snkDraws ∧ t.snk = s.snk) ∧
    (i ≠ .load → i ≠ .store → t.ioCount = s.ioCount)

/-- FAULTS and REFUSED start empty and false, no step clears them, and no host register shows them (10_state.md R41). -/
def Obligations.MarksAreSticky : Prop :=
  (State.reset.faults = {} ∧ State.reset.refused = false) ∧
  (∀ s t : State, step s = .next t →
    (s.faults.unwritten = true → t.faults.unwritten = true) ∧
    (s.faults.shortOverwrite = true → t.faults.shortOverwrite = true) ∧
    (s.faults.layout = true → t.faults.layout = true) ∧
    (s.refused = true → t.refused = true)) ∧
  (∀ (s : State) (fs : FaultSet) (r : Bool) (reg : Reg),
    ({ s with faults := fs, refused := r } : State).regContent reg = s.regContent reg)

/-- No step writes the parameters (00_scope.md R10; that they stand in the state is the model's choice,
notes/assumptions/6.md). -/
def Obligations.ParametersNeverWritten : Prop :=
  ∀ s t : State, step s = .next t → t.params = s.params

/-- Every element has the reset value of 70_reset_and_hazards.md R124; ENGINE is IDLE, so no accumulator and no WPTR exists. -/
def Obligations.ResetValues : Prop :=
  State.reset.status = none ∧ State.reset.arg0 = none ∧ State.reset.ckHi = none ∧ State.reset.ckLo = none ∧
  State.reset.img = some { len := 0, cells := [] } ∧ State.reset.hbuf = none ∧ State.reset.dbuf = none ∧
  State.reset.rtxt = none ∧ State.reset.hreg = {} ∧ State.reset.eng = .idle ∧
  State.reset.faults = {} ∧ State.reset.refused = false

/-- The machine's invariant holds after reset: the canonical memory, P_IMG_MAX, the STATUS codes, the width of ARG0, the
validity of the title, the pairs, and what a run needs. -/
def Obligations.InvariantAtReset : Prop := State.reset.Inv

/-- Every step keeps the invariant, from every state that has it (10_state.md R25, R26, R33, R37; 20_memory.md R43;
42_header_codec.md R95, R98; 60_exceptions.md R111). -/
def Obligations.InvariantKeptByStep : Prop :=
  ∀ s t : State, s.Inv → step s = .next t → t.Inv

/-! ### Further statements -/

/-- While ENGINE is IDLE a step is HOST's next operation, on the state with that operation taken, and with no operation left
the state stays (10_state.md R16, R17, R21, R22; 20_memory.md R45). That HOST's operations are a list, and that HOST does
nothing when it is empty, is the model's choice (notes/assumptions/3.md). -/
def Obligations.StepTakesHostOperation : Prop :=
  ∀ (s : State) (ops : List HostOp), s.eng = .idle →
    (∀ r v, s.hostOps = .write r v :: ops → step s = hostWrite r v { s with hostOps := ops }) ∧
    (∀ r, s.hostOps = .read r :: ops → step s = .next (hostRead r { s with hostOps := ops })) ∧
    (∀ a n, s.hostOps = .readImg a n :: ops → step s = .next (hostReadImg a n { s with hostOps := ops })) ∧
    (s.hostOps = [] → step s = .next s)

/-- HostReadImg with IMG unwritten (after a ReadError) records F_UNWRITTEN while ENGINE is IDLE and is refused otherwise
(20_memory.md R45, 10_state.md R40); that it faults and is not refused is the model's reading (DEDUCED,
notes/assumptions/13.md). -/
def Obligations.HostReadImgUnwrittenFaults : Prop :=
  ∀ (s : State) (a n : Nat), s.img = none →
    (s.eng = .idle → hostReadImg a n s = faultUnwritten s) ∧
    (s.eng ≠ .idle → hostReadImg a n s = { s with refused := true })

/-- No hidden state carries across calls (41_checksum_engine.md R86): from any two states that hold the same image and the same
P_AUX_TIE, whatever ran before, CHECKSUM gives the same STATUS and, where it gives a pair, the same pair; it changes nothing
but STATUS, CK_HI and CK_LO. -/
def Obligations.ChecksumIgnoresHistory : Prop :=
  ∀ (s s' : State) (m : Memory), s.img = some m → s'.img = some m → s.params.auxTie = s'.params.auxTie →
    ∃ t t', exec .checksum s = .next t ∧ exec .checksum s' = .next t' ∧ t.status = t'.status ∧
      (t.status = some 0x00#8 → t.ckHi = t'.ckHi ∧ t.ckLo = t'.ckLo ∧ t.ckHi.isSome = true ∧ t.ckLo.isSome = true) ∧
      { t with status := s.status, ckHi := s.ckHi, ckLo := s.ckLo } = s

/-- The text HRENDER writes has the form 42_header_codec.md R101 fixes: one line per field, integers in hexadecimal, character
codes as their ASCII characters. What R101 leaves open is free (notes/assumptions/7.md). -/
def Obligations.HrenderTextKeepsItsForm : Prop :=
  ∀ (s : State) (h : Header), s.hreg.full = some h →
    ∃ text, exec .hrender s = .next { s with rtxt := some text, status := some 0x00#8 } ∧ RenderedAs h text
end

