-- ==== Sys2Proof/Laws/Bytes.lean ====
section
/-! SUPPORT. Big-endian numbers and byte strings: the small lemmas of `be`, `beBytes`, `slice`. -/

namespace Sys2Proof.Machine

@[simp] theorem be_nil : be [] = 0 := rfl

theorem foldl_be (s : List Byte) (n : Nat) :
    s.foldl (fun acc b => acc * 256 + b.toNat) n = n * 256 ^ s.length + be s := by
  induction s generalizing n with
  | nil => simp
  | cons b s ih =>
    rw [be, List.foldl_cons, List.foldl_cons, ih, ih (0 * 256 + b.toNat), List.length_cons]
    ring

theorem be_cons (b : Byte) (s : List Byte) : be (b :: s) = b.toNat * 256 ^ s.length + be s := by
  rw [be, List.foldl_cons, foldl_be]
  ring

theorem be_append (s t : List Byte) : be (s ++ t) = be s * 256 ^ t.length + be t := by
  rw [be, List.foldl_append, foldl_be]
  rfl

theorem be_snoc (s : List Byte) (b : Byte) : be (s ++ [b]) = be s * 256 + b.toNat := by
  simp [be, List.foldl_append]

theorem be_lt (s : List Byte) : be s < 256 ^ s.length := by
  induction s using List.reverseRecOn with
  | nil => simp
  | append_singleton s b ih =>
    have hb : b.toNat < 256 := b.isLt
    rw [be_snoc, List.length_append, List.length_singleton, pow_succ]
    omega

@[simp] theorem beBytes_length (n v : Nat) : (beBytes n v).length = n := by
  induction n generalizing v with
  | zero => rfl
  | succ n ih => simp [beBytes, ih]

/-- `BE(BEbytes_n(v)) = v` for `v < 256^n` (00_scope.md R13). -/
theorem be_beBytes (n v : Nat) : be (beBytes n v) = v % 256 ^ n := by
  induction n generalizing v with
  | zero => simp [beBytes, Nat.mod_one]
  | succ n ih =>
    rw [beBytes, be_snoc, ih, BitVec.toNat_ofNat, show 256 ^ (n + 1) = 256 * 256 ^ n by ring, Nat.mod_mul]
    omega

theorem beBytes_be (s : List Byte) : beBytes s.length (be s) = s := by
  induction s using List.reverseRecOn with
  | nil => rfl
  | append_singleton s b ih =>
    have hb : b.toNat < 256 := b.isLt
    have h1 : (be s * 256 + b.toNat) / 256 = be s := by omega
    have h2 : BitVec.ofNat 8 (be s * 256 + b.toNat) = b := by
      apply BitVec.eq_of_toNat_eq
      simp only [BitVec.toNat_ofNat]
      omega
    rw [List.length_append, List.length_singleton, beBytes, be_snoc, h1, h2, ih]

theorem slice_length (b : List Byte) (off n : Nat) (h : off + n ≤ b.length) : (slice b off n).length = n := by
  simp only [slice, List.length_take, List.length_drop]
  omega

@[simp] theorem normTitle_length (trunc : Config.TitleTrunc) (t : List Byte) :
    (normTitle trunc t).length = titleLen := by
  have hcut : ∀ n, charBoundaryCut t n ≤ n := by
    intro n
    induction n with
    | zero => simp [charBoundaryCut]
    | succ n ih =>
      simp only [charBoundaryCut]
      split <;> omega
  have := hcut titleLen
  unfold normTitle
  split
  · simp
    omega
  · cases trunc <;> simp <;> omega

end Sys2Proof.Machine
end

