-- ==== Sys2Proof/Laws/Memory.lean ====
section
/-! SUPPORT. The image memory: what a byte reads as after each operation, and that every operation keeps the canonical
form. Reads go through `Memory.byte`; `Memory.bytes` and `Memory.seek` are only its fast forms. -/

namespace Sys2Proof.Machine

/-! ### Reading -/

theorem byteAt_dropWhile (cs : List Host.Cell) (a x : Nat) (h : a ≤ x) :
    byteAt (cs.dropWhile (fun c => decide (c.1 < a))) x = byteAt cs x := by
  induction cs with
  | nil => rfl
  | cons c cs ih =>
    by_cases hc : c.1 < a
    · have hx : c.1 < x := by omega
      simp [hc, byteAt, hx, ih]
    · simp [hc]

@[simp] theorem seek_len (m : Memory) (a : Nat) : (m.seek a).len = m.len := rfl

theorem seek_byte (m : Memory) (a x : Nat) (h : a ≤ x) : (m.seek a).byte x = m.byte x :=
  byteAt_dropWhile m.cells a x h

theorem seek_word (m : Memory) (a x : Nat) (h : a ≤ x) : (m.seek a).word x = m.word x := by
  simp only [Memory.word, seek_byte m a x h, seek_byte m a (x + 1) (by omega), seek_byte m a (x + 2) (by omega),
    seek_byte m a (x + 3) (by omega)]

theorem bytesLoop_eq (n : Nat) : ∀ (m m' : Memory) (a : Nat) (done : List Byte), (∀ x, a ≤ x → m.byte x = m'.byte x) →
    m.bytesLoop a done n = done.reverse ++ (List.range' a n).map m'.byte := by
  induction n with
  | zero => intro m m' a done _; simp [Memory.bytesLoop]
  | succ n ih =>
    intro m m' a done h
    rw [Memory.bytesLoop, ih (m.seek a) m' (a + 1)]
    · simp [List.range'_succ, seek_byte m a a (le_refl a), h a (le_refl a)]
    · intro x hx
      rw [seek_byte m a x (by omega), h x (by omega)]

/-- `IMG[a..a+n)` is the bytes at `a`, `a + 1`, …, `a + n - 1`. -/
theorem bytes_eq (m : Memory) (a n : Nat) : m.bytes a n = (List.range' a n).map m.byte := by
  simpa [Memory.bytes] using bytesLoop_eq n m m a [] (fun _ _ => rfl)

@[simp] theorem bytes_length (m : Memory) (a n : Nat) : (m.bytes a n).length = n := by
  simp [bytes_eq]

theorem bytes_getElem? (m : Memory) (a n k : Nat) (h : k < n) : (m.bytes a n)[k]? = some (m.byte (a + k)) := by
  simp [bytes_eq, h]

/-! ### Cells of a byte string -/

@[simp] theorem cellsOf_nil (a : Nat) : cellsOf a [] = [] := rfl

theorem cellsOf_cons (a : Nat) (b : Byte) (s : List Byte) :
    cellsOf a (b :: s) = if b = Memory.unlisted then cellsOf (a + 1) s else (a, b) :: cellsOf (a + 1) s := by
  unfold cellsOf
  rw [List.zipIdx_cons, List.filterMap_cons]
  split <;> split <;> simp_all

theorem mem_cellsOf (s : List Byte) (a : Nat) (c : Host.Cell) (h : c ∈ cellsOf a s) :
    a ≤ c.1 ∧ c.1 < a + s.length ∧ c.2 ≠ Memory.unlisted := by
  induction s generalizing a with
  | nil => simp at h
  | cons b s ih =>
    rw [cellsOf_cons] at h
    simp only [List.length_cons]
    split at h
    · obtain ⟨h1, h2, h3⟩ := ih (a + 1) h
      exact ⟨by omega, by omega, h3⟩
    · rcases List.mem_cons.mp h with rfl | h
      · exact ⟨by simp, by simp, by assumption⟩
      · obtain ⟨h1, h2, h3⟩ := ih (a + 1) h
        exact ⟨by omega, by omega, h3⟩

theorem cellsOf_sorted (s : List Byte) (a : Nat) : (cellsOf a s).Pairwise (fun x y => x.1 < y.1) := by
  induction s generalizing a with
  | nil => simp
  | cons b s ih =>
    rw [cellsOf_cons]
    split
    · exact ih (a + 1)
    · refine List.pairwise_cons.mpr ⟨fun c hc => ?_, ih (a + 1)⟩
      have := (mem_cellsOf s (a + 1) c hc).1
      show a < c.1
      omega

/-- An address below every cell reads as unlisted. -/
theorem byteAt_low (cs : List Host.Cell) (x : Nat) (h : ∀ c ∈ cs, x < c.1) : byteAt cs x = Memory.unlisted := by
  cases cs with
  | nil => rfl
  | cons c cs =>
    have := h c (by simp)
    simp [byteAt, show ¬ c.1 < x by omega, show c.1 ≠ x by omega]

/-- An address above every cell reads as unlisted. -/
theorem byteAt_high (cs : List Host.Cell) (x : Nat) (h : ∀ c ∈ cs, c.1 < x) : byteAt cs x = Memory.unlisted := by
  induction cs with
  | nil => rfl
  | cons c cs ih =>
    simp [byteAt, h c (by simp), ih (fun d hd => h d (by simp [hd]))]

/-- Below `b`, a list whose second part starts at `b` or above reads as its first part. -/
theorem byteAt_append_low (cs ds : List Host.Cell) (b x : Nat) (hx : x < b) (hd : ∀ c ∈ ds, b ≤ c.1) :
    byteAt (cs ++ ds) x = byteAt cs x := by
  induction cs with
  | nil =>
    rw [List.nil_append, byteAt_low ds x (fun c hc => lt_of_lt_of_le hx (hd c hc))]
    rfl
  | cons c cs ih => simp [byteAt, ih]

/-- At `b` and above, a list whose first part lies below `b` reads as its second part. -/
theorem byteAt_append_high (cs ds : List Host.Cell) (b x : Nat) (hx : b ≤ x) (hc : ∀ c ∈ cs, c.1 < b) :
    byteAt (cs ++ ds) x = byteAt ds x := by
  induction cs with
  | nil => rfl
  | cons c cs ih =>
    have := hc c (by simp)
    simp [byteAt, show c.1 < x by omega, ih (fun d hd => hc d (by simp [hd]))]

theorem byteAt_cellsOf (s : List Byte) (a x : Nat) (h1 : a ≤ x) (h2 : x < a + s.length) :
    byteAt (cellsOf a s) x = s.getD (x - a) Memory.unlisted := by
  induction s generalizing a with
  | nil => simp at h2; omega
  | cons b s ih =>
    rw [cellsOf_cons]
    simp only [List.length_cons] at h2
    by_cases hax : x = a
    · subst hax
      split
      · rename_i hb
        rw [byteAt_low _ x (fun c hc => lt_of_lt_of_le (Nat.lt_succ_self x) (mem_cellsOf s (x + 1) c hc).1)]
        simp [hb]
      · simp [byteAt]
    · have hstep : byteAt (cellsOf (a + 1) s) x = (b :: s).getD (x - a) Memory.unlisted := by
        rw [ih (a + 1) (by omega) (by omega)]
        obtain ⟨k, rfl⟩ : ∃ k, x = a + 1 + k := ⟨x - (a + 1), by omega⟩
        rw [show a + 1 + k - (a + 1) = k by omega, show a + 1 + k - a = k + 1 by omega]
        simp
      split
      · exact hstep
      · simp [byteAt, show a < x by omega, hstep]

/-! ### Each operation: the byte it leaves, and the canonical form -/

theorem empty_wf : Memory.empty.wf := by decide

@[simp] theorem ofBytes_len (s : List Byte) : (Memory.ofBytes s).len = s.length := rfl

theorem ofBytes_byte (s : List Byte) (x : Nat) (h : x < s.length) :
    (Memory.ofBytes s).byte x = s.getD x Memory.unlisted := by
  simpa [Memory.byte, Memory.ofBytes] using byteAt_cellsOf s 0 x (by omega) (by omega)

theorem ofBytes_wf (s : List Byte) : (Memory.ofBytes s).wf := by
  refine ⟨cellsOf_sorted s 0, fun c hc => ?_⟩
  obtain ⟨_, h2, h3⟩ := mem_cellsOf s 0 c hc
  exact ⟨by simpa using h2, h3⟩

@[simp] theorem append_len (m : Memory) (s : List Byte) : (m.append s).len = m.len + s.length := rfl

theorem append_byte_old (m : Memory) (s : List Byte) (x : Nat) (h : x < m.len) : (m.append s).byte x = m.byte x :=
  byteAt_append_low m.cells _ m.len x h (fun c hc => (mem_cellsOf s m.len c hc).1)

theorem append_byte_new (m : Memory) (s : List Byte) (x : Nat) (hm : m.wf) (h1 : m.len ≤ x) (h2 : x < m.len + s.length) :
    (m.append s).byte x = s.getD (x - m.len) Memory.unlisted := by
  rw [Memory.byte, Memory.append, byteAt_append_high m.cells _ m.len x h1 (fun c hc => (hm.2 c hc).1)]
  exact byteAt_cellsOf s m.len x h1 h2

theorem append_wf (m : Memory) (s : List Byte) (hm : m.wf) : (m.append s).wf := by
  refine ⟨List.pairwise_append.mpr ⟨hm.1, cellsOf_sorted s m.len, fun c hc d hd => ?_⟩, fun c hc => ?_⟩
  · exact lt_of_lt_of_le (hm.2 c hc).1 (mem_cellsOf s m.len d hd).1
  · rcases List.mem_append.mp hc with hc | hc
    · exact ⟨lt_of_lt_of_le (hm.2 c hc).1 (Nat.le_add_right _ _), (hm.2 c hc).2⟩
    · exact (mem_cellsOf s m.len c hc).2

@[simp] theorem prepend_len (m : Memory) (s : List Byte) : (m.prepend s).len = s.length + m.len := rfl

theorem byteAt_shift (cs : List Host.Cell) (n x : Nat) :
    byteAt (cs.map (fun c => (c.1 + n, c.2))) (x + n) = byteAt cs x := by
  induction cs with
  | nil => rfl
  | cons c cs ih => simp [byteAt, ih]

theorem prepend_byte_new (m : Memory) (s : List Byte) (x : Nat) (h : x < s.length) :
    (m.prepend s).byte x = s.getD x Memory.unlisted := by
  rw [Memory.byte, Memory.prepend, byteAt_append_low _ _ s.length x h]
  · simpa using byteAt_cellsOf s 0 x (by omega) (by omega)
  · intro c hc
    obtain ⟨d, _, rfl⟩ := List.mem_map.mp hc
    exact Nat.le_add_left _ _

/-- Every old byte at `x` moves to `x + len(s)` (43_image_buffer.md R106). -/
theorem prepend_byte_old (m : Memory) (s : List Byte) (x : Nat) :
    (m.prepend s).byte (x + s.length) = m.byte x := by
  rw [Memory.byte, Memory.prepend, byteAt_append_high _ _ s.length (x + s.length) (Nat.le_add_left _ _), byteAt_shift]
  · rfl
  · intro c hc
    simpa using (mem_cellsOf s 0 c hc).2.1

theorem prepend_wf (m : Memory) (s : List Byte) (hm : m.wf) : (m.prepend s).wf := by
  refine ⟨List.pairwise_append.mpr ⟨cellsOf_sorted s 0, ?_, fun c hc d hd => ?_⟩, fun c hc => ?_⟩
  · exact (List.pairwise_map.mpr (hm.1.imp (fun h => by simpa using h)))
  · obtain ⟨e, _, rfl⟩ := List.mem_map.mp hd
    have := (mem_cellsOf s 0 c hc).2.1
    simp at this ⊢
    omega
  · show c.1 < s.length + m.len ∧ _
    rcases List.mem_append.mp hc with hc | hc
    · obtain ⟨_, h2, h3⟩ := mem_cellsOf s 0 c hc
      exact ⟨by omega, h3⟩
    · obtain ⟨e, he, rfl⟩ := List.mem_map.mp hc
      have := hm.2 e he
      exact ⟨by have := this.1; simp; omega, this.2⟩

@[simp] theorem write_len (m : Memory) (a : Nat) (s : List Byte) : (m.write a s).len = m.len := rfl

theorem byteAt_filter_low (cs : List Host.Cell) (a x : Nat) (h : x < a) :
    byteAt (cs.filter (fun c => decide (c.1 < a))) x = byteAt cs x ∨ ¬ cs.Pairwise (fun x y => x.1 < y.1) := by
  by_cases hs : cs.Pairwise (fun x y => x.1 < y.1)
  · left
    induction cs with
    | nil => rfl
    | cons c cs ih =>
      obtain ⟨h1, h2⟩ := List.pairwise_cons.mp hs
      by_cases hc : c.1 < a
      · simp [hc, byteAt, ih h2]
      · rw [byteAt_low (c :: cs) x, byteAt_low _ x]
        · intro d hd
          have := (List.mem_filter.mp hd).2
          have hd' := (List.mem_filter.mp hd).1
          rcases List.mem_cons.mp hd' with rfl | hd'
          · omega
          · have := h1 d hd'
            omega
        · intro d hd
          rcases List.mem_cons.mp hd with rfl | hd
          · omega
          · have := h1 d hd
            omega
  · exact Or.inr hs

theorem byteAt_filter_high (cs : List Host.Cell) (b x : Nat) (h : b ≤ x) :
    byteAt (cs.filter (fun c => decide (b ≤ c.1))) x = byteAt cs x := by
  induction cs with
  | nil => rfl
  | cons c cs ih =>
    by_cases hc : b ≤ c.1
    · simp [hc, byteAt, ih]
    · simp [hc, byteAt, show c.1 < x by omega, ih]

/-- Outside the bytes stored, a byte reads as before. -/
theorem write_byte_out (m : Memory) (a : Nat) (s : List Byte) (x : Nat) (hm : m.wf) (h : x < a ∨ a + s.length ≤ x) :
    (m.write a s).byte x = m.byte x := by
  have hmid : ∀ c ∈ cellsOf a s, a ≤ c.1 ∧ c.1 < a + s.length := fun c hc =>
    ⟨(mem_cellsOf s a c hc).1, (mem_cellsOf s a c hc).2.1⟩
  have hlow : ∀ c ∈ m.cells.filter (fun c => decide (c.1 < a)), c.1 < a := fun c hc => by
    simpa using (List.mem_filter.mp hc).2
  have hhigh : ∀ c ∈ m.cells.filter (fun c => decide (a + s.length ≤ c.1)), a + s.length ≤ c.1 := fun c hc => by
    simpa using (List.mem_filter.mp hc).2
  rw [Memory.byte, Memory.byte, Memory.write]
  rcases h with h | h
  · rw [List.append_assoc, byteAt_append_low _ _ a x h]
    · exact (byteAt_filter_low m.cells a x h).resolve_right (fun hs => hs hm.1)
    · intro c hc
      rcases List.mem_append.mp hc with hc | hc
      · exact (hmid c hc).1
      · exact le_trans (Nat.le_add_right _ _) (hhigh c hc)
  · rw [byteAt_append_high _ _ (a + s.length) x h, byteAt_filter_high _ _ x h]
    intro c hc
    rcases List.mem_append.mp hc with hc | hc
    · exact lt_of_lt_of_le (hlow c hc) (Nat.le_add_right _ _)
    · exact (hmid c hc).2

/-- A byte that was stored reads as what was stored. -/
theorem write_byte_in (m : Memory) (a : Nat) (s : List Byte) (x : Nat) (h1 : a ≤ x) (h2 : x < a + s.length) :
    (m.write a s).byte x = s.getD (x - a) Memory.unlisted := by
  rw [Memory.byte, Memory.write, byteAt_append_low _ _ (a + s.length) x h2, byteAt_append_high _ _ a x h1]
  · exact byteAt_cellsOf s a x h1 h2
  · intro c hc
    simpa using (List.mem_filter.mp hc).2
  · intro c hc
    simpa using (List.mem_filter.mp hc).2

theorem write_wf (m : Memory) (a : Nat) (s : List Byte) (hm : m.wf) (h : a + s.length ≤ m.len) : (m.write a s).wf := by
  refine ⟨?_, fun c hc => ?_⟩
  · refine List.pairwise_append.mpr ⟨List.pairwise_append.mpr ⟨hm.1.filter _, cellsOf_sorted s a, ?_⟩, hm.1.filter _, ?_⟩
    · intro c hc d hd
      have h1 : c.1 < a := by simpa using (List.mem_filter.mp hc).2
      exact lt_of_lt_of_le h1 (mem_cellsOf s a d hd).1
    · intro c hc d hd
      have h2 : a + s.length ≤ d.1 := by simpa using (List.mem_filter.mp hd).2
      rcases List.mem_append.mp hc with hc | hc
      · have h1 : c.1 < a := by simpa using (List.mem_filter.mp hc).2
        omega
      · have h1 := (mem_cellsOf s a c hc).2.1
        omega
  · show c.1 < m.len ∧ _
    rcases List.mem_append.mp hc with hc | hc
    · rcases List.mem_append.mp hc with hc | hc
      · exact hm.2 c (List.mem_filter.mp hc).1
      · obtain ⟨_, h2, h3⟩ := mem_cellsOf s a c hc
        exact ⟨by omega, h3⟩
    · exact hm.2 c (List.mem_filter.mp hc).1

theorem growTo_len (m : Memory) (target : Nat) (fill : Byte) : (m.growTo target fill).len = max m.len target := by
  simp [Memory.growTo]
  omega

theorem growTo_byte_old (m : Memory) (target : Nat) (fill : Byte) (x : Nat) (h : x < m.len) :
    (m.growTo target fill).byte x = m.byte x :=
  append_byte_old m _ x h

theorem growTo_byte_new (m : Memory) (target : Nat) (fill : Byte) (x : Nat) (hm : m.wf) (h1 : m.len ≤ x) (h2 : x < target) :
    (m.growTo target fill).byte x = fill := by
  rw [Memory.growTo, append_byte_new m _ x hm h1 (by simp; omega)]
  simp [List.getD, show x - m.len < target - m.len by omega]

theorem growTo_wf (m : Memory) (target : Nat) (fill : Byte) (hm : m.wf) : (m.growTo target fill).wf :=
  append_wf m _ hm

end Sys2Proof.Machine
end

