-- ==== Sys2Proof/Laws/Checksum.lean ====
section
/-! SUPPORT. The loop over the window as the word-by-word loop of 41_checksum_engine.md R78, without the cursor that makes
it fast, and what `State.need` and `State.withPair` can answer. -/

namespace Sys2Proof.Machine

@[simp] theorem windowLoop_zero (tie : Config.AuxTie) (m : Memory) (a : Nat) (acc : Acc) :
    windowLoop tie m a acc 0 = acc := rfl

/-- Images that agree from `a` on give the same loop. -/
theorem windowLoop_congr (tie : Config.AuxTie) (n : Nat) : ∀ (m m' : Memory) (a : Nat) (acc : Acc),
    (∀ x, a ≤ x → x < a + 4 * n → m.byte x = m'.byte x) → windowLoop tie m a acc n = windowLoop tie m' a acc n := by
  induction n with
  | zero => intro m m' a acc _; rfl
  | succ n ih =>
    intro m m' a acc h
    have hw : (m.seek a).word a = (m'.seek a).word a := by
      rw [seek_word m a a (le_refl a), seek_word m' a a (le_refl a)]
      simp only [Memory.word, h a (by omega) (by omega), h (a + 1) (by omega) (by omega),
        h (a + 2) (by omega) (by omega), h (a + 3) (by omega) (by omega)]
    rw [windowLoop, windowLoop, hw]
    refine ih _ _ _ _ (fun x h1 h2 => ?_)
    rw [seek_byte m a x (by omega), seek_byte m' a x (by omega)]
    exact h x (by omega) (by omega)

/-- One word more at the front (41_checksum_engine.md R78). -/
theorem windowLoop_succ (tie : Config.AuxTie) (m : Memory) (a : Nat) (acc : Acc) (n : Nat) :
    windowLoop tie m a acc (n + 1) = windowLoop tie m (a + 4) (wordStep tie acc (m.word a)) n := by
  rw [windowLoop, seek_word m a a (le_refl a)]
  exact windowLoop_congr tie n _ _ _ _ (fun x h1 _ => seek_byte m a x (by omega))

/-- One word more at the end (41_checksum_engine.md R78). -/
theorem windowLoop_snoc (tie : Config.AuxTie) (m : Memory) (a : Nat) (acc : Acc) (n : Nat) :
    windowLoop tie m a acc (n + 1) = wordStep tie (windowLoop tie m a acc n) (m.word (a + 4 * n)) := by
  induction n generalizing a acc with
  | zero => rw [windowLoop_succ]; rfl
  | succ n ih =>
    rw [windowLoop_succ, ih, ← windowLoop_succ, show a + 4 + 4 * n = a + 4 * (n + 1) by ring]

/-- The loop as a fold over the list of the window's words. -/
theorem windowLoop_eq_foldl (tie : Config.AuxTie) (m : Memory) (a n : Nat) (acc : Acc) :
    windowLoop tie m a acc n = ((List.range n).map fun k => m.word (a + 4 * k)).foldl (wordStep tie) acc := by
  induction n with
  | zero => rfl
  | succ n ih =>
    rw [windowLoop_snoc, ih, List.range_succ, List.map_append, List.foldl_append]
    rfl

/-- `State.need` answers the fault, or goes on with the element's value. -/
theorem need_cases {α : Type} (s : State) (r : Option α) (k : α → State) :
    (r = none ∧ s.need r k = s.fault .unwritten) ∨ (∃ a, r = some a ∧ s.need r k = k a) := by
  cases r with
  | none => exact Or.inl ⟨rfl, rfl⟩
  | some a => exact Or.inr ⟨a, rfl, rfl⟩

theorem need_of_none {α : Type} {s : State} {r : Option α} {k : α → State} (h : r = none) :
    s.need r k = s.fault .unwritten := by
  rw [h]
  rfl

theorem need_of_some {α : Type} {s : State} {r : Option α} {k : α → State} {a : α} (h : r = some a) : s.need r k = k a := by
  rw [h]
  rfl

@[simp] theorem need_none {α : Type} (s : State) (k : α → State) : s.need none k = s.fault .unwritten := rfl

@[simp] theorem need_some {α : Type} (s : State) (a : α) (k : α → State) : s.need (some a) k = k a := rfl

/-- `State.withPair` answers the fault, InsufficientData, or goes on with the pair. -/
theorem withPair_cases (s : State) (k : Word × Word → State) :
    (s.img = none ∧ s.withPair k = s.fault .unwritten) ∨
    (∃ m, s.img = some m ∧ m.len < ckMinLen ∧ s.withPair k = s.raise .insufficientData) ∨
    (∃ m pair, s.img = some m ∧ ckMinLen ≤ m.len ∧ checksumFn s.params.auxTie m = some pair ∧ s.withPair k = k pair) := by
  rcases need_cases s s.img (fun m =>
    match checksumFn s.params.auxTie m with
    | none => s.raise .insufficientData
    | some pair => k pair) with ⟨h1, h2⟩ | ⟨m, h1, h2⟩
  · exact Or.inl ⟨h1, h2⟩
  · right
    by_cases hl : m.len < ckMinLen
    · left
      refine ⟨m, h1, hl, ?_⟩
      simp only [State.withPair, h1, need_some, checksumFn, hl, if_true]
    · right
      have hc : checksumFn s.params.auxTie m = some (windowLoop s.params.auxTie m ckStart Acc.seed ckWords).fold := by
        rw [checksumFn, if_neg hl]
      generalize (windowLoop s.params.auxTie m ckStart Acc.seed ckWords).fold = pair at hc
      exact ⟨m, pair, h1, by omega, hc, by simp only [State.withPair, h1, need_some, hc]⟩

end Sys2Proof.Machine
end

