-- ==== Sys2Proof/Laws/State.lean ====
section
/-! SUPPORT. One lemma per field of `State` per named update, so that no later proof unfolds a record update. -/

namespace Sys2Proof.Machine

/-! ### `State.setStatus` -/

@[simp] theorem setStatus_status (s : State) (code : Byte) : (s.setStatus code).status = some code := rfl
@[simp] theorem setStatus_arg0 (s : State) (code : Byte) : (s.setStatus code).arg0 = s.arg0 := rfl
@[simp] theorem setStatus_ckHi (s : State) (code : Byte) : (s.setStatus code).ckHi = s.ckHi := rfl
@[simp] theorem setStatus_ckLo (s : State) (code : Byte) : (s.setStatus code).ckLo = s.ckLo := rfl
@[simp] theorem setStatus_img (s : State) (code : Byte) : (s.setStatus code).img = s.img := rfl
@[simp] theorem setStatus_hbuf (s : State) (code : Byte) : (s.setStatus code).hbuf = s.hbuf := rfl
@[simp] theorem setStatus_dbuf (s : State) (code : Byte) : (s.setStatus code).dbuf = s.dbuf := rfl
@[simp] theorem setStatus_rtxt (s : State) (code : Byte) : (s.setStatus code).rtxt = s.rtxt := rfl
@[simp] theorem setStatus_hreg (s : State) (code : Byte) : (s.setStatus code).hreg = s.hreg := rfl
@[simp] theorem setStatus_eng (s : State) (code : Byte) : (s.setStatus code).eng = s.eng := rfl
@[simp] theorem setStatus_faults (s : State) (code : Byte) : (s.setStatus code).faults = s.faults := rfl
@[simp] theorem setStatus_refused (s : State) (code : Byte) : (s.setStatus code).refused = s.refused := rfl
@[simp] theorem setStatus_params (s : State) (code : Byte) : (s.setStatus code).params = s.params := rfl
@[simp] theorem setStatus_hostOps (s : State) (code : Byte) : (s.setStatus code).hostOps = s.hostOps := rfl
@[simp] theorem setStatus_replies (s : State) (code : Byte) : (s.setStatus code).replies = s.replies := rfl
@[simp] theorem setStatus_srcDraws (s : State) (code : Byte) : (s.setStatus code).srcDraws = s.srcDraws := rfl
@[simp] theorem setStatus_snkDraws (s : State) (code : Byte) : (s.setStatus code).snkDraws = s.snkDraws := rfl
@[simp] theorem setStatus_ioCount (s : State) (code : Byte) : (s.setStatus code).ioCount = s.ioCount := rfl
@[simp] theorem setStatus_snk (s : State) (code : Byte) : (s.setStatus code).snk = s.snk := rfl

/-! ### `State.ok` -/

@[simp] theorem ok_status (s : State) : (s.ok).status = some statusOk := rfl
@[simp] theorem ok_arg0 (s : State) : (s.ok).arg0 = s.arg0 := rfl
@[simp] theorem ok_ckHi (s : State) : (s.ok).ckHi = s.ckHi := rfl
@[simp] theorem ok_ckLo (s : State) : (s.ok).ckLo = s.ckLo := rfl
@[simp] theorem ok_img (s : State) : (s.ok).img = s.img := rfl
@[simp] theorem ok_hbuf (s : State) : (s.ok).hbuf = s.hbuf := rfl
@[simp] theorem ok_dbuf (s : State) : (s.ok).dbuf = s.dbuf := rfl
@[simp] theorem ok_rtxt (s : State) : (s.ok).rtxt = s.rtxt := rfl
@[simp] theorem ok_hreg (s : State) : (s.ok).hreg = s.hreg := rfl
@[simp] theorem ok_eng (s : State) : (s.ok).eng = s.eng := rfl
@[simp] theorem ok_faults (s : State) : (s.ok).faults = s.faults := rfl
@[simp] theorem ok_refused (s : State) : (s.ok).refused = s.refused := rfl
@[simp] theorem ok_params (s : State) : (s.ok).params = s.params := rfl
@[simp] theorem ok_hostOps (s : State) : (s.ok).hostOps = s.hostOps := rfl
@[simp] theorem ok_replies (s : State) : (s.ok).replies = s.replies := rfl
@[simp] theorem ok_srcDraws (s : State) : (s.ok).srcDraws = s.srcDraws := rfl
@[simp] theorem ok_snkDraws (s : State) : (s.ok).snkDraws = s.snkDraws := rfl
@[simp] theorem ok_ioCount (s : State) : (s.ok).ioCount = s.ioCount := rfl
@[simp] theorem ok_snk (s : State) : (s.ok).snk = s.snk := rfl

/-! ### `State.raise` -/

@[simp] theorem raise_status (s : State) (e : Err) : (s.raise e).status = some e.code := rfl
@[simp] theorem raise_arg0 (s : State) (e : Err) : (s.raise e).arg0 = s.arg0 := rfl
@[simp] theorem raise_ckHi (s : State) (e : Err) : (s.raise e).ckHi = s.ckHi := rfl
@[simp] theorem raise_ckLo (s : State) (e : Err) : (s.raise e).ckLo = s.ckLo := rfl
@[simp] theorem raise_img (s : State) (e : Err) : (s.raise e).img = s.img := rfl
@[simp] theorem raise_hbuf (s : State) (e : Err) : (s.raise e).hbuf = s.hbuf := rfl
@[simp] theorem raise_dbuf (s : State) (e : Err) : (s.raise e).dbuf = s.dbuf := rfl
@[simp] theorem raise_rtxt (s : State) (e : Err) : (s.raise e).rtxt = s.rtxt := rfl
@[simp] theorem raise_hreg (s : State) (e : Err) : (s.raise e).hreg = s.hreg := rfl
@[simp] theorem raise_eng (s : State) (e : Err) : (s.raise e).eng = s.eng := rfl
@[simp] theorem raise_faults (s : State) (e : Err) : (s.raise e).faults = s.faults := rfl
@[simp] theorem raise_refused (s : State) (e : Err) : (s.raise e).refused = s.refused := rfl
@[simp] theorem raise_params (s : State) (e : Err) : (s.raise e).params = s.params := rfl
@[simp] theorem raise_hostOps (s : State) (e : Err) : (s.raise e).hostOps = s.hostOps := rfl
@[simp] theorem raise_replies (s : State) (e : Err) : (s.raise e).replies = s.replies := rfl
@[simp] theorem raise_srcDraws (s : State) (e : Err) : (s.raise e).srcDraws = s.srcDraws := rfl
@[simp] theorem raise_snkDraws (s : State) (e : Err) : (s.raise e).snkDraws = s.snkDraws := rfl
@[simp] theorem raise_ioCount (s : State) (e : Err) : (s.raise e).ioCount = s.ioCount := rfl
@[simp] theorem raise_snk (s : State) (e : Err) : (s.raise e).snk = s.snk := rfl

/-! ### `State.fault` -/

@[simp] theorem fault_status (s : State) (f : Fault) : (s.fault f).status = s.status := rfl
@[simp] theorem fault_arg0 (s : State) (f : Fault) : (s.fault f).arg0 = s.arg0 := rfl
@[simp] theorem fault_ckHi (s : State) (f : Fault) : (s.fault f).ckHi = s.ckHi := rfl
@[simp] theorem fault_ckLo (s : State) (f : Fault) : (s.fault f).ckLo = s.ckLo := rfl
@[simp] theorem fault_img (s : State) (f : Fault) : (s.fault f).img = s.img := rfl
@[simp] theorem fault_hbuf (s : State) (f : Fault) : (s.fault f).hbuf = s.hbuf := rfl
@[simp] theorem fault_dbuf (s : State) (f : Fault) : (s.fault f).dbuf = s.dbuf := rfl
@[simp] theorem fault_rtxt (s : State) (f : Fault) : (s.fault f).rtxt = s.rtxt := rfl
@[simp] theorem fault_hreg (s : State) (f : Fault) : (s.fault f).hreg = s.hreg := rfl
@[simp] theorem fault_eng (s : State) (f : Fault) : (s.fault f).eng = s.eng := rfl
@[simp] theorem fault_faults (s : State) (f : Fault) : (s.fault f).faults = s.faults.insert f := rfl
@[simp] theorem fault_refused (s : State) (f : Fault) : (s.fault f).refused = s.refused := rfl
@[simp] theorem fault_params (s : State) (f : Fault) : (s.fault f).params = s.params := rfl
@[simp] theorem fault_hostOps (s : State) (f : Fault) : (s.fault f).hostOps = s.hostOps := rfl
@[simp] theorem fault_replies (s : State) (f : Fault) : (s.fault f).replies = s.replies := rfl
@[simp] theorem fault_srcDraws (s : State) (f : Fault) : (s.fault f).srcDraws = s.srcDraws := rfl
@[simp] theorem fault_snkDraws (s : State) (f : Fault) : (s.fault f).snkDraws = s.snkDraws := rfl
@[simp] theorem fault_ioCount (s : State) (f : Fault) : (s.fault f).ioCount = s.ioCount := rfl
@[simp] theorem fault_snk (s : State) (f : Fault) : (s.fault f).snk = s.snk := rfl

/-! ### `State.refuse` -/

@[simp] theorem refuse_status (s : State) : (s.refuse).status = s.status := rfl
@[simp] theorem refuse_arg0 (s : State) : (s.refuse).arg0 = s.arg0 := rfl
@[simp] theorem refuse_ckHi (s : State) : (s.refuse).ckHi = s.ckHi := rfl
@[simp] theorem refuse_ckLo (s : State) : (s.refuse).ckLo = s.ckLo := rfl
@[simp] theorem refuse_img (s : State) : (s.refuse).img = s.img := rfl
@[simp] theorem refuse_hbuf (s : State) : (s.refuse).hbuf = s.hbuf := rfl
@[simp] theorem refuse_dbuf (s : State) : (s.refuse).dbuf = s.dbuf := rfl
@[simp] theorem refuse_rtxt (s : State) : (s.refuse).rtxt = s.rtxt := rfl
@[simp] theorem refuse_hreg (s : State) : (s.refuse).hreg = s.hreg := rfl
@[simp] theorem refuse_eng (s : State) : (s.refuse).eng = s.eng := rfl
@[simp] theorem refuse_faults (s : State) : (s.refuse).faults = s.faults := rfl
@[simp] theorem refuse_refused (s : State) : (s.refuse).refused = true := rfl
@[simp] theorem refuse_params (s : State) : (s.refuse).params = s.params := rfl
@[simp] theorem refuse_hostOps (s : State) : (s.refuse).hostOps = s.hostOps := rfl
@[simp] theorem refuse_replies (s : State) : (s.refuse).replies = s.replies := rfl
@[simp] theorem refuse_srcDraws (s : State) : (s.refuse).srcDraws = s.srcDraws := rfl
@[simp] theorem refuse_snkDraws (s : State) : (s.refuse).snkDraws = s.snkDraws := rfl
@[simp] theorem refuse_ioCount (s : State) : (s.refuse).ioCount = s.ioCount := rfl
@[simp] theorem refuse_snk (s : State) : (s.refuse).snk = s.snk := rfl

/-! ### `State.reply` -/

@[simp] theorem reply_status (s : State) (v : HostVal) : (s.reply v).status = s.status := rfl
@[simp] theorem reply_arg0 (s : State) (v : HostVal) : (s.reply v).arg0 = s.arg0 := rfl
@[simp] theorem reply_ckHi (s : State) (v : HostVal) : (s.reply v).ckHi = s.ckHi := rfl
@[simp] theorem reply_ckLo (s : State) (v : HostVal) : (s.reply v).ckLo = s.ckLo := rfl
@[simp] theorem reply_img (s : State) (v : HostVal) : (s.reply v).img = s.img := rfl
@[simp] theorem reply_hbuf (s : State) (v : HostVal) : (s.reply v).hbuf = s.hbuf := rfl
@[simp] theorem reply_dbuf (s : State) (v : HostVal) : (s.reply v).dbuf = s.dbuf := rfl
@[simp] theorem reply_rtxt (s : State) (v : HostVal) : (s.reply v).rtxt = s.rtxt := rfl
@[simp] theorem reply_hreg (s : State) (v : HostVal) : (s.reply v).hreg = s.hreg := rfl
@[simp] theorem reply_eng (s : State) (v : HostVal) : (s.reply v).eng = s.eng := rfl
@[simp] theorem reply_faults (s : State) (v : HostVal) : (s.reply v).faults = s.faults := rfl
@[simp] theorem reply_refused (s : State) (v : HostVal) : (s.reply v).refused = s.refused := rfl
@[simp] theorem reply_params (s : State) (v : HostVal) : (s.reply v).params = s.params := rfl
@[simp] theorem reply_hostOps (s : State) (v : HostVal) : (s.reply v).hostOps = s.hostOps := rfl
@[simp] theorem reply_replies (s : State) (v : HostVal) : (s.reply v).replies = s.replies ++ [v] := rfl
@[simp] theorem reply_srcDraws (s : State) (v : HostVal) : (s.reply v).srcDraws = s.srcDraws := rfl
@[simp] theorem reply_snkDraws (s : State) (v : HostVal) : (s.reply v).snkDraws = s.snkDraws := rfl
@[simp] theorem reply_ioCount (s : State) (v : HostVal) : (s.reply v).ioCount = s.ioCount := rfl
@[simp] theorem reply_snk (s : State) (v : HostVal) : (s.reply v).snk = s.snk := rfl

end Sys2Proof.Machine
end

