-- ==== Sys2Proof/Laws/Machine.lean ====
section
/-! SUPPORT. Inversion lemmas of the machine: every meaning answers a next state, what a draw changes, HBUF from a byte
string, and which agent a step belongs to. -/

namespace Sys2Proof.Machine

/-- Every command answers a next state: no meaning ends with a fault or a refusal of the machine. -/
theorem exec_next (i : Instr) (s : State) : ∃ t, exec i s = .next t := by
  cases i <;> exact ⟨_, rfl⟩

theorem issue_next (i : Instr) (s : State) : ∃ t, issue i s = .next t := by
  unfold issue
  split
  · exact ⟨_, rfl⟩
  · exact exec_next i s
  · exact exec_next i s

/-- A draw of SRC takes the next one fixed in advance, or a free one. -/
theorem drawLoad_cases (s : State) :
    (∃ d ds, s.srcDraws = d :: ds ∧ s.drawLoad = (d, { s with srcDraws := ds })) ∨
    (s.srcDraws = [] ∧ s.drawLoad = (Config.loadDraw s.ioCount, { s with ioCount := s.ioCount + 1 })) := by
  unfold State.drawLoad
  split
  · rename_i d ds h
    exact Or.inl ⟨d, ds, h, rfl⟩
  · rename_i h
    exact Or.inr ⟨h, rfl⟩

/-- A draw of SNK takes the next one fixed in advance, or a free one. -/
theorem drawStore_cases (s : State) :
    (∃ d ds, s.snkDraws = d :: ds ∧ s.drawStore = (d, { s with snkDraws := ds })) ∨
    (s.snkDraws = [] ∧ s.drawStore = (Config.storeDraw s.ioCount, { s with ioCount := s.ioCount + 1 })) := by
  unfold State.drawStore
  split
  · rename_i d ds h
    exact Or.inl ⟨d, ds, h, rfl⟩
  · rename_i h
    exact Or.inr ⟨h, rfl⟩

/-- A draw of SRC changes the draws and nothing else. -/
theorem drawLoad_frame (s : State) :
    s.drawLoad.2 = { s with srcDraws := s.drawLoad.2.srcDraws, ioCount := s.drawLoad.2.ioCount } := by
  rcases drawLoad_cases s with ⟨d, ds, _, h⟩ | ⟨_, h⟩ <;> rw [h]

theorem drawLoad_params (s : State) : s.drawLoad.2.params = s.params := by
  rw [drawLoad_frame]

/-- A draw of SNK changes the draws and nothing else. -/
theorem drawStore_frame (s : State) :
    s.drawStore.2 = { s with snkDraws := s.drawStore.2.snkDraws, ioCount := s.drawStore.2.ioCount } := by
  rcases drawStore_cases s with ⟨d, ds, _, h⟩ | ⟨_, h⟩ <;> rw [h]

theorem drawStore_img (s : State) : s.drawStore.2.img = s.img := by
  rw [drawStore_frame]

/-- A byte string is HBUF's content exactly when it has 64 bytes. -/
theorem toHbuf_some (s : List Byte) (b : Vector Byte 64) : toHbuf s = some b ↔ b.toList = s := by
  unfold toHbuf
  constructor
  · intro h
    split at h
    · rw [← Option.some.inj h]
      rfl
    · cases h
  · rintro rfl
    simp [Vector.length_toList]
    rfl

theorem toHbuf_of_length (s : List Byte) (h : s.length = 64) : ∃ b, toHbuf s = some b ∧ b.toList = s := by
  refine ⟨⟨s.toArray, by simpa using h⟩, ?_, rfl⟩
  simp [toHbuf, h]

@[simp] theorem full_ofHeader (h : Header) : (HReg.ofHeader h).full = some h := rfl

/-- HREG read as a whole gives a header exactly when it is that header, written. -/
theorem full_some (r : HReg) (h : Header) : r.full = some h ↔ r = HReg.ofHeader h := by
  constructor
  · intro hf
    obtain ⟨a, b, c, d, e, f, g, t, i, j, k, l, m⟩ := r
    rcases a with _ | a
    · cases hf
    rcases b with _ | b
    · cases hf
    rcases c with _ | c
    · cases hf
    rcases d with _ | d
    · cases hf
    rcases e with _ | e
    · cases hf
    rcases f with _ | f
    · cases hf
    rcases g with _ | g
    · cases hf
    rcases t with _ | t
    · cases hf
    rcases i with _ | i
    · cases hf
    rcases j with _ | j
    · cases hf
    rcases k with _ | k
    · cases hf
    rcases l with _ | l
    · cases hf
    rcases m with _ | m
    · cases hf
    cases hf
    rfl
  · rintro rfl
    rfl

/-- A step belongs to ENGINE while ENG is not IDLE, and else to HOST (10_state.md R17). -/
theorem step_cases (s : State) :
    (s.eng ≠ .idle ∧ step s = .next (engineStep s)) ∨
    (s.eng = .idle ∧ s.hostOps = [] ∧ step s = .next s) ∨
    (∃ op ops, s.eng = .idle ∧ s.hostOps = op :: ops ∧ step s = hostStep op { s with hostOps := ops }) := by
  unfold step
  split
  · rename_i he
    split
    · rename_i ho
      exact Or.inr (Or.inl ⟨he, ho, rfl⟩)
    · rename_i op ops ho
      exact Or.inr (Or.inr ⟨op, ops, he, ho, rfl⟩)
  all_goals
    rename_i he
    exact Or.inl ⟨by rw [he]; exact Engine.noConfusion, rfl⟩

/-- The core's step is `step`. -/
@[simp] theorem core_step : Sys2Proof.core.step = step := rfl

end Sys2Proof.Machine
end

