-- ==== Sys2Proof/Laws/Commands.lean ====
section
/-! SUPPORT. The inversion lemma of `exec`: everything a command can do, said once. Invariants and frames follow by cases on
`Result` instead of unfolding the meanings again. -/

namespace Sys2Proof.Machine

/-- What a command can do to a state. -/
inductive Result (s : State) : Instr → State → Prop
  | fault (i : Instr) (f : Fault) (hf : f ≠ .layout) (hi : i ≠ .store) : Result s i (s.fault f)
  | refuse (i : Instr) (hi : i ≠ .load) : Result s i s.refuse
  | short (i : Instr) (hi : i = .checksum ∨ i = .hrecomp ∨ i = .hdefault) (m : Memory) (hm : s.img = some m)
      (hl : m.len < ckMinLen) : Result s i (s.raise .insufficientData)
  | checksum (m : Memory) (hm : s.img = some m) (hl : ckMinLen ≤ m.len) (pair : Word × Word)
      (hp : checksumFn s.params.auxTie m = some pair) : Result s .checksum (s.finishChecksum pair)
  | hrecomp (m : Memory) (hm : s.img = some m) (hl : ckMinLen ≤ m.len) (pair : Word × Word)
      (hp : checksumFn s.params.auxTie m = some pair) : Result s .hrecomp (s.finishHrecomp pair)
  | hdefault (m : Memory) (hm : s.img = some m) (hl : ckMinLen ≤ m.len) (pair : Word × Word)
      (hp : checksumFn s.params.auxTie m = some pair) : Result s .hdefault (s.finishHdefault pair)
  | truncated (m : Memory) (hm : s.img = some m) (hl : m.len < hdrLen) : Result s .hdecode (s.raise .truncatedHeader)
  | badTitle (m : Memory) (hm : s.img = some m) (hl : hdrLen ≤ m.len)
      (ht : titleOk s.params (decodeHeader (m.bytes 0 hdrLen)).title = false) :
      Result s .hdecode (s.raise .invalidTitleEncoding)
  | hdecode (m : Memory) (hm : s.img = some m) (hl : hdrLen ≤ m.len)
      (ht : titleOk s.params (decodeHeader (m.bytes 0 hdrLen)).title = true) :
      Result s .hdecode (State.ok { s with hreg := HReg.ofHeader (decodeHeader (m.bytes 0 hdrLen)) })
  | hencode (h : Header) (hh : s.hreg.full = some h) (b : Vector Byte 64)
      (hb : b.toList = encodeHeader s.params.titleTrunc h) :
      Result s .hencode (State.ok { s with hbuf := some b })
  | hrender (h : Header) (hh : s.hreg.full = some h) :
      Result s .hrender (State.ok { s with rtxt := some (renderText h) })
  | load (src : List Byte) (hd : s.drawLoad.1 = .bytes src) (hp : pastImgMax s.params src.length = false) :
      Result s .load (State.ok { s.drawLoad.2 with img := some (Memory.ofBytes src) })
  | loadPast (src : List Byte) (hd : s.drawLoad.1 = .bytes src) (hp : pastImgMax s.params src.length = true) :
      Result s .load s.drawLoad.2.refuse
  | loadFail (hd : s.drawLoad.1 = .readFail) : Result s .load (State.raise { s.drawLoad.2 with img := none } .readError)
  | store (m : Memory) (hm : s.img = some m) (hd : s.drawStore.1 = .ok) :
      Result s .store (State.ok { s.drawStore.2 with snk := m.bytes 0 m.len })
  | storeUnwritten (hm : s.img = none) (hd : s.drawStore.1 = .ok) : Result s .store (s.drawStore.2.fault .unwritten)
  | storeFail (sunk : List Byte) (hd : s.drawStore.1 = .writeFail sunk) :
      Result s .store (State.raise { s.drawStore.2 with snk := sunk } .writeError)
  | hoverwrite (m : Memory) (hm : s.img = some m) (hl : hdrLen ≤ m.len) (b : Vector Byte 64) (hb : s.hbuf = some b) :
      Result s .hoverwrite (State.ok { s with img := some (m.write 0 b.toList) })
  | hprepend (m : Memory) (hm : s.img = some m) (hl : pastImgMax s.params (m.len + hdrLen) = false)
      (b : Vector Byte 64) (hb : s.hbuf = some b) :
      Result s .hprepend (State.ok { s with img := some (m.prepend b.toList) })
  | padTo (fill : Byte) (target : Nat) (ha : s.arg0 = some target) (m : Memory) (hm : s.img = some m)
      (hl : m.len < target) (hp : pastImgMax s.params target = false) :
      Result s (.padTo fill) (State.ok { s with img := some (m.growTo target fill) })
  | padToLong (fill : Byte) (target : Nat) (ha : s.arg0 = some target) (m : Memory) (hm : s.img = some m)
      (hl : target ≤ m.len) : Result s (.padTo fill) s.ok
  | padBy (fill : Byte) (count : Nat) (ha : s.arg0 = some count) (m : Memory) (hm : s.img = some m)
      (hp : pastImgMax s.params (m.len + count) = false) :
      Result s (.padBy fill) (State.ok { s with img := some (m.append (List.replicate count fill)) })
  | injectGrow (offset : Nat) (ha : s.arg0 = some offset) (data : List Byte) (hd : s.dbuf = some data) (m : Memory)
      (hm : s.img = some m) (hl : m.len < offset + data.length)
      (hp : pastImgMax s.params (offset + data.length) = false) :
      Result s .injectAt
        (State.ok { s with img := some ((m.growTo (offset + data.length) s.params.injectFill).write offset data) })
  | injectIn (offset : Nat) (ha : s.arg0 = some offset) (data : List Byte) (hd : s.dbuf = some data) (m : Memory)
      (hm : s.img = some m) (hl : offset + data.length ≤ m.len) :
      Result s .injectAt (State.ok { s with img := some (m.write offset data) })

@[simp] theorem encodeHeader_length (trunc : Config.TitleTrunc) (h : Header) : (encodeHeader trunc h).length = 64 := by
  simp [encodeHeader, titleLen]

/-- The meanings answer what `Result` lists. -/
theorem exec_result (i : Instr) (s : State) : ∃ t, exec i s = .next t ∧ Result s i t := by
  cases i <;> refine ⟨_, rfl, ?_⟩
  case checksum =>
    rcases withPair_cases s (fun p => s.finishChecksum p) with ⟨_, h⟩ | ⟨m, hm, hl, h⟩ | ⟨m, pair, hm, hl, hp, h⟩ <;> rw [h]
    · exact .fault _ _ (by simp) (by simp)
    · exact .short _ (by simp) m hm hl
    · exact .checksum m hm hl pair hp
  case hrecomp =>
    rcases withPair_cases s (fun p => s.finishHrecomp p) with ⟨_, h⟩ | ⟨m, hm, hl, h⟩ | ⟨m, pair, hm, hl, hp, h⟩ <;> rw [h]
    · exact .fault _ _ (by simp) (by simp)
    · exact .short _ (by simp) m hm hl
    · exact .hrecomp m hm hl pair hp
  case hdefault =>
    rcases withPair_cases s (fun p => s.finishHdefault p) with ⟨_, h⟩ | ⟨m, hm, hl, h⟩ | ⟨m, pair, hm, hl, hp, h⟩ <;> rw [h]
    · exact .fault _ _ (by simp) (by simp)
    · exact .short _ (by simp) m hm hl
    · exact .hdefault m hm hl pair hp
  case hdecode =>
    rcases Option.eq_none_or_eq_some s.img with hm | ⟨m, hm⟩
    · rw [need_of_none hm]
      exact .fault _ _ (by simp) (by simp)
    · rw [need_of_some hm]
      split
      · exact .truncated m hm (by assumption)
      · rename_i hl
        dsimp only
        split
        · exact .hdecode m hm (by omega) (by assumption)
        · exact .badTitle m hm (by omega) (by simp_all)
  case hencode =>
    rcases Option.eq_none_or_eq_some s.hreg.full with hh | ⟨h, hh⟩
    · rw [need_of_none hh]
      exact .fault _ _ (by simp) (by simp)
    · rw [need_of_some hh]
      obtain ⟨b, hb, hbl⟩ := toHbuf_of_length (encodeHeader s.params.titleTrunc h) (by simp)
      simp only [hb]
      exact .hencode h hh b hbl
  case hrender =>
    rcases Option.eq_none_or_eq_some s.hreg.full with hh | ⟨h, hh⟩
    · rw [need_of_none hh]
      exact .fault _ _ (by simp) (by simp)
    · rw [need_of_some hh]
      exact .hrender h hh
  case load =>
    have hp : s.drawLoad.2.params = s.params := drawLoad_params s
    rcases hd : s.drawLoad.1 with src | _
    · by_cases hl : pastImgMax s.params src.length = true
      · rw [State.loadWith, if_pos (by rw [hp]; exact hl)]
        exact .loadPast src hd hl
      · rw [State.loadWith, if_neg (by rw [hp]; exact hl)]
        exact .load src hd (by simpa using hl)
    · exact .loadFail hd
  case store =>
    have hi := drawStore_img s
    rcases hd : s.drawStore.1 with _ | sunk
    · rcases Option.eq_none_or_eq_some s.img with hm | ⟨m, hm⟩
      · rw [State.storeWith, need_of_none (hi.trans hm)]
        exact .storeUnwritten hm hd
      · rw [State.storeWith, need_of_some (hi.trans hm)]
        exact .store m hm hd
    · exact .storeFail sunk hd
  case hoverwrite =>
    rcases Option.eq_none_or_eq_some s.img with hm | ⟨m, hm⟩
    · rw [need_of_none hm]
      exact .fault _ _ (by simp) (by simp)
    · rw [need_of_some hm]
      split
      · exact .fault _ _ (by simp) (by simp)
      · rcases Option.eq_none_or_eq_some s.hbuf with hb | ⟨b, hb⟩
        · rw [need_of_none hb]
          exact .fault _ _ (by simp) (by simp)
        · rw [need_of_some hb]
          exact .hoverwrite m hm (by omega) b hb
  case hprepend =>
    rcases Option.eq_none_or_eq_some s.img with hm | ⟨m, hm⟩
    · rw [need_of_none hm]
      exact .fault _ _ (by simp) (by simp)
    · rw [need_of_some hm]
      split
      · exact .refuse _ (by simp)
      · rcases Option.eq_none_or_eq_some s.hbuf with hb | ⟨b, hb⟩
        · rw [need_of_none hb]
          exact .fault _ _ (by simp) (by simp)
        · rw [need_of_some hb]
          exact .hprepend m hm (by simp_all) b hb
  case padTo fill =>
    rcases Option.eq_none_or_eq_some s.arg0 with ha | ⟨target, ha⟩
    · rw [need_of_none ha]
      exact .fault _ _ (by simp) (by simp)
    · rw [need_of_some ha]
      rcases Option.eq_none_or_eq_some s.img with hm | ⟨m, hm⟩
      · rw [need_of_none hm]
        exact .fault _ _ (by simp) (by simp)
      · rw [need_of_some hm]
        split
        · split
          · exact .refuse _ (by simp)
          · exact .padTo fill target ha m hm (by assumption) (by simp_all)
        · exact .padToLong fill target ha m hm (by omega)
  case padBy fill =>
    rcases Option.eq_none_or_eq_some s.arg0 with ha | ⟨count, ha⟩
    · rw [need_of_none ha]
      exact .fault _ _ (by simp) (by simp)
    · rw [need_of_some ha]
      rcases Option.eq_none_or_eq_some s.img with hm | ⟨m, hm⟩
      · rw [need_of_none hm]
        exact .fault _ _ (by simp) (by simp)
      · rw [need_of_some hm]
        split
        · exact .refuse _ (by simp)
        · exact .padBy fill count ha m hm (by simp_all)
  case injectAt =>
    rcases Option.eq_none_or_eq_some s.arg0 with ha | ⟨offset, ha⟩
    · rw [need_of_none ha]
      exact .fault _ _ (by simp) (by simp)
    · rw [need_of_some ha]
      rcases Option.eq_none_or_eq_some s.dbuf with hd | ⟨data, hd⟩
      · rw [need_of_none hd]
        exact .fault _ _ (by simp) (by simp)
      · rw [need_of_some hd]
        rcases Option.eq_none_or_eq_some s.img with hm | ⟨m, hm⟩
        · rw [need_of_none hm]
          exact .fault _ _ (by simp) (by simp)
        · rw [need_of_some hm]
          dsimp only
          split
          · split
            · exact .refuse _ (by simp)
            · exact .injectGrow offset ha data hd m hm (by assumption) (by simp_all)
          · exact .injectIn offset ha data hd m hm (by omega)

/-- `exec_result`, as it is used. -/
theorem result_of_exec {i : Instr} {s t : State} (h : exec i s = .next t) : Result s i t := by
  obtain ⟨u, hu, hr⟩ := exec_result i s
  rw [hu] at h
  cases h
  exact hr

/-- A recorded fault leaves a state that is not clean. -/
theorem not_clean_fault (s : State) (f : Fault) : ¬ (s.fault f).Clean := by
  rintro ⟨h, _⟩
  cases f <;> simp [FaultSet.insert] at h

/-- A refusal leaves a state that is not clean. -/
theorem not_clean_refuse (s : State) : ¬ s.refuse.Clean := by
  rintro ⟨_, h⟩
  simp at h

end Sys2Proof.Machine
end

