-- ==== Sys2Proof/Laws/PerInstr.lean ====
section
/-! SUPPORT. The family `Encoding`: every command's word is well formed (30_encoding.md R66, R71), and its opcode is the one
of R68. One lemma per constructor. -/

namespace Sys2Proof.Laws.Encoding

/-- The opcodes of 30_encoding.md R68. -/
def opcode : Instr → Nat
  | .checksum => 0x01
  | .hdecode => 0x02
  | .hencode => 0x03
  | .hrecomp => 0x04
  | .hdefault => 0x05
  | .hrender => 0x06
  | .load => 0x10
  | .store => 0x11
  | .hoverwrite => 0x12
  | .hprepend => 0x13
  | .padTo _ => 0x14
  | .padBy _ => 0x15
  | .injectAt => 0x16

/-- The command's word is well formed and carries its opcode. -/
def Statement (i : Instr) : Prop := i.cmdWord.WellFormed = true ∧ i.cmdWord.opc.toNat = opcode i

theorem checksum : Statement .checksum := ⟨by decide, by decide⟩
theorem hdecode : Statement .hdecode := ⟨by decide, by decide⟩
theorem hencode : Statement .hencode := ⟨by decide, by decide⟩
theorem hrecomp : Statement .hrecomp := ⟨by decide, by decide⟩
theorem hdefault : Statement .hdefault := ⟨by decide, by decide⟩
theorem hrender : Statement .hrender := ⟨by decide, by decide⟩
theorem load : Statement .load := ⟨by decide, by decide⟩
theorem store : Statement .store := ⟨by decide, by decide⟩
theorem hoverwrite : Statement .hoverwrite := ⟨by decide, by decide⟩
theorem hprepend : Statement .hprepend := ⟨by decide, by decide⟩
theorem padTo (fill : Byte) : Statement (.padTo fill) := by
  simp [Statement, Instr.cmdWord, CmdWord.WellFormed, CmdWord.rsvZero, CmdWord.opcNamed, CmdWord.fillAllowed, opcode]
theorem padBy (fill : Byte) : Statement (.padBy fill) := by
  simp [Statement, Instr.cmdWord, CmdWord.WellFormed, CmdWord.rsvZero, CmdWord.opcNamed, CmdWord.fillAllowed, opcode]
theorem injectAt : Statement .injectAt := ⟨by decide, by decide⟩

end Sys2Proof.Laws.Encoding
end

