-- ==== Sys2Proof/Laws/Render.lean ====
section
/-! SUPPORT. The text of a header record: the plain style is admitted for every header, so `renderText` always has the form
42_header_codec.md R101 fixes. -/

namespace Sys2Proof.Machine

open Sys2Proof.Config

theorem hexDigit_ge (upper : Bool) (d : Nat) (h : d < 16) : 0x20 ≤ (hexDigit upper d).toNat := by
  unfold hexDigit
  rw [BitVec.toNat_ofNat]
  split
  · omega
  · split <;> omega

theorem hexDigits_ge (upper : Bool) (n v : Nat) : ∀ b ∈ hexDigits upper n v, 0x20 ≤ b.toNat := by
  induction n generalizing v with
  | zero => simp [hexDigits]
  | succ n ih =>
    intro b hb
    rcases List.mem_append.mp hb with hb | hb
    · exact ih _ b hb
    · rw [List.mem_singleton.mp hb]
      exact hexDigit_ge upper _ (Nat.mod_lt _ (by omega))

theorem codeText_ge (c : Byte) (other : List Byte) (h : ∀ b ∈ other, 0x20 ≤ b.toNat) :
    ∀ b ∈ codeText c other, 0x20 ≤ b.toNat := by
  unfold codeText isPrintable
  split
  · intro b hb
    rw [List.mem_singleton.mp hb]
    simp_all
  · exact h

/-- A line of the plain style holds no control code. -/
theorem plainField_ge (h : Header) (f : Field) : ∀ b ∈ fieldText (plainStyle h) h f, 0x20 ≤ b.toNat := by
  intro b hb
  cases f <;>
    simp only [fieldText, plainStyle, valueText, hexText, List.nil_append, List.append_nil, List.mem_append] at hb
  case title =>
    obtain ⟨l, hl, hb⟩ := List.mem_flatten.mp hb
    obtain ⟨c, _, rfl⟩ := List.mem_map.mp hl
    exact hexDigits_ge _ _ _ b hb
  case category => exact codeText_ge _ _ (hexDigits_ge _ _ _) b hb
  case destination => exact codeText_ge _ _ (hexDigits_ge _ _ _) b hb
  case unique =>
    rcases hb with hb | hb
    · exact codeText_ge _ _ (hexDigits_ge _ _ _) b hb
    · exact codeText_ge _ _ (hexDigits_ge _ _ _) b hb
  all_goals exact hexDigits_ge _ _ _ b hb

/-- `occursIn` is being a contiguous part. -/
theorem occursIn_iff (e t : List Byte) : occursIn e t = true ↔ e <:+: t := by
  simp only [occursIn, List.any_eq_true, List.mem_tails, List.isPrefixOf_iff_prefix]
  rw [List.infix_iff_prefix_suffix]
  exact ⟨fun ⟨x, h1, h2⟩ => ⟨x, h2, h1⟩, fun ⟨x, h1, h2⟩ => ⟨x, h2, h1⟩⟩

theorem plainStyle_admits (h : Header) : admits (plainStyle h) h = true := by
  have ho : (plainStyle h).order.flatten.isPerm allFields = true ∧ (plainStyle h).order.all oneField = true := by
    change (allFields.map fun f => [f]).flatten.isPerm allFields = true ∧ (allFields.map fun f => [f]).all oneField = true
    decide
  have hn : ∀ line ∈ (plainStyle h).order, occursIn (plainStyle h).ending (lineText (plainStyle h) h line) = false := by
    intro line hl
    rw [Bool.eq_false_iff]
    intro hc
    have hm : 0x0A#8 ∈ lineText (plainStyle h) h line := ((occursIn_iff _ _).mp hc).subset (by simp [plainStyle])
    obtain ⟨l, hl', hb⟩ := List.mem_flatten.mp hm
    obtain ⟨f, _, rfl⟩ := List.mem_map.mp hl'
    exact absurd (plainField_ge h f _ hb) (by decide)
  simp only [admits, ho.1, ho.2, Bool.true_and, Bool.and_eq_true, List.all_eq_true]
  exact ⟨rfl, fun line hl => by simpa [plainStyle] using hn line hl⟩

/-- Everything that is known of the text: it is the header's text in some style that R101 admits. -/
theorem renderText_cases (h : Header) : ∃ st, admits st h = true ∧ renderText h = styledText st h := by
  unfold renderText
  split
  · exact ⟨_, by assumption, rfl⟩
  · exact ⟨_, plainStyle_admits h, rfl⟩

end Sys2Proof.Machine
end

