-- ==== Sys2Proof/Tests/Slice0.lean ====
section
/-! SUPPORT. Tests on fixed values, each from 95_test_vectors.md or written out from a rule, and one witness for each clause
of a statement that has hypotheses. -/

namespace Sys2Proof.Tests

open Sys2Proof.Machine Sys2Proof.Claims

/-! ### Helpers -/

/-- The state an outcome goes on with. -/
def answer : Host.Outcome State Fault Refusal → Option State
  | .next s => some s
  | .fault _ => none
  | .refused _ => none

/-- The first `n` bytes of the pattern image (95_test_vectors.md). -/
def pattern (n : Nat) : List Byte := (List.range n).map (BitVec.ofNat 8)

/-- After reset, with the given bytes in IMG. -/
def withBytes (b : List Byte) : State := { State.reset with img := some (Memory.ofBytes b) }

/-- After reset, with an image of `len` zero bytes. -/
def withZeros (len : Nat) : State := { State.reset with img := some { len := len, cells := [] } }

/-- The bytes of IMG. -/
def imageOf (s : State) : Option (List Byte) := s.img.map fun m => m.bytes 0 m.len

/-- A word step's result, in the order (ROLL, CARRY, XOR, ROT, AUX, WSUM) of 95_test_vectors.md section 2.2. -/
def six (a b c d e f : Word) : Acc := { roll := a, carry := b, xor := c, rot := d, aux := e, wsum := f }

/-- An HBUF of one repeated byte. -/
def hbufOf (b : Byte) : Vector Byte 64 := Vector.replicate 64 b

/-- A header record with every field written. -/
def someHeader : Header := defaultHeader {} (1#32, 2#32)

/-! ### Well-formedness: one ill-formed word for each check -/

theorem test_wellFormed_accepts : (CmdWord.WellFormed { rsv := 0#16, fill := 0xFF#8, opc := 0x14#8 }) = true := by decide

theorem test_wellFormed_refuses_rsv : (CmdWord.WellFormed { rsv := 1#16, fill := 0#8, opc := 0x01#8 }) = false := by decide

theorem test_wellFormed_refuses_opc : (CmdWord.WellFormed { rsv := 0#16, fill := 0#8, opc := 0x17#8 }) = false := by decide

theorem test_wellFormed_refuses_fill : (CmdWord.WellFormed { rsv := 0#16, fill := 1#8, opc := 0x01#8 }) = false := by decide

/-! ### Decoding: each command's word, RSV then FILL then OPC, bit by bit (30_encoding.md R66, R68) -/

theorem test_decode_checksum : decode 0b0000000000000000_00000000_00000001#32 = .ok .checksum := by rfl
theorem test_decode_hdecode : decode 0b0000000000000000_00000000_00000010#32 = .ok .hdecode := by rfl
theorem test_decode_hencode : decode 0b0000000000000000_00000000_00000011#32 = .ok .hencode := by rfl
theorem test_decode_hrecomp : decode 0b0000000000000000_00000000_00000100#32 = .ok .hrecomp := by rfl
theorem test_decode_hdefault : decode 0b0000000000000000_00000000_00000101#32 = .ok .hdefault := by rfl
theorem test_decode_hrender : decode 0b0000000000000000_00000000_00000110#32 = .ok .hrender := by rfl
theorem test_decode_load : decode 0b0000000000000000_00000000_00010000#32 = .ok .load := by rfl
theorem test_decode_store : decode 0b0000000000000000_00000000_00010001#32 = .ok .store := by rfl
theorem test_decode_hoverwrite : decode 0b0000000000000000_00000000_00010010#32 = .ok .hoverwrite := by rfl
theorem test_decode_hprepend : decode 0b0000000000000000_00000000_00010011#32 = .ok .hprepend := by rfl
theorem test_decode_padTo : decode 0b0000000000000000_11111111_00010100#32 = .ok (.padTo 0xFF#8) := by rfl
theorem test_decode_padBy : decode 0b0000000000000000_10000001_00010101#32 = .ok (.padBy 0x81#8) := by rfl
theorem test_decode_injectAt : decode 0b0000000000000000_00000000_00010110#32 = .ok .injectAt := by rfl

/-- D-ENC4 to D-ENC7. -/
theorem test_decode_refuses : decode 0x00000000#32 = .error .reservedOpcode ∧ decode 0x00010001#32 = .error .reservedBits ∧
    decode 0x00000101#32 = .error .fillNotZero ∧ decode 0x00000017#32 = .error .reservedOpcode := ⟨rfl, rfl, rfl, rfl⟩

/-- D-ENC2, as the opcode table numbers the bits; a number of more than 32 bits spells no command. -/
theorem test_decodeTableWord : decodeTableWord 32 0x0000FF14 = some (.padTo 0xFF#8) ∧ decodeTableWord 40 0x100000001 = none := by
  decide

/-! ### The checksum engine -/

/-- D-ROT2, D-ROT4, D-ROT6, D-ROT8. -/
theorem test_rot : rotWord 0x00000020#32 = 0x00000020#32 ∧ rotWord 0x80000001#32 = 0x00000003#32 ∧
    rotWord 0x0000001F#32 = 0x8000000F#32 ∧ rotWord 0x12345678#32 = 0x78123456#32 := by decide

/-- D-STEP2 and D-STEP3. -/
theorem test_wordStep_pattern :
    wordStep .doc (six 0xF8CB4FDF#32 0xF8CA4DDC#32 0xF8CB4FDF#32 0xF8D25DF4#32 0xF8C25DC4#32 0xF19DADD3#32) 0x04050607#32 =
      six 0xFCD055E6#32 0xF8CA4DDC#32 0xFCCE49D8#32 0xFB556176#32 0xFA415E46#32 0xF0EE1544#32 ∧
    wordStep .doc (six 0xFCD055E6#32 0xF8CA4DDC#32 0xFCCE49D8#32 0xFB556176#32 0xFA415E46#32 0xF0EE1544#32) 0x08090A0B#32 =
      six 0x04D95FF1#32 0xF8CA4DDD#32 0xF4C743D3#32 0x43A5B9B6#32 0xB2110606#32 0x3C9AC901#32 := by decide

/-- D-STEP7 and D-STEP8: the tie ACC_AUX = w. -/
theorem test_wordStep_tie :
    wordStep .doc Acc.seed 0xF8CA4DDC#32 =
      six 0xF1949BB8#32 0xF8CA4DDD#32 0x00000000#32 0xC856F2B9#32 0x3746E901#32 0x29670D41#32 ∧
    wordStep .orig Acc.seed 0xF8CA4DDC#32 =
      six 0xF1949BB8#32 0xF8CA4DDD#32 0x00000000#32 0xC856F2B9#32 0xF1949BB8#32 0x29670D41#32 := by decide

/-- 20_memory.md R48 on 95_test_vectors.md P3's end state: the word of bytes C0 C1 C2 C3. -/
theorem test_word_bigEndian : (Memory.ofBytes [0xC0#8, 0xC1#8, 0xC2#8, 0xC3#8]).word 0 = 0xC0C1C2C3#32 := by decide

/-- L1-2: one byte short. -/
theorem test_checksum_short : (answer (exec .checksum (withZeros 0x100FFF))).map (fun s => (s.status, s.ckHi)) =
    some (some 0x01#8, none) := by decide

/-- D-CK1, from the accumulators its zero words leave: ACC_WSUM has gained INITIAL 0x40000 times. -/
theorem test_checksum_fold :
    (fun s => (s.status, s.ckHi, s.ckLo)) (engineStep { withZeros 0x101000 with
      eng := .fold .checksum { Acc.seed with wsum := ckInitial * 0x40001#32 } 0x101000 }) =
    (some 0x00#8, some 0xF8CA4DDC#32, some 0x303A4DDC#32) := by decide

/-! ### The header codec -/

/-- D-HDC1. -/
theorem test_hdecode_pattern : (answer (exec .hdecode (withBytes (pattern 64)))).map
    (fun s => (s.hreg.crcLo, s.hreg.reserved1, s.hreg.reserved2, s.hreg.unique, s.hreg.version)) =
    some (some 0x14151617#32, some 0x18191A1B1C1D1E1F#64, some 0x3435363738393A#56, some 0x3C3D#16, some 0x3F#8) := by decide

/-- D-HDC4. -/
theorem test_hdecode_title : (answer (exec .hdecode (withBytes ((pattern 64).set 0x20 0xFF#8)))).map
    (fun s => (s.status, s.hreg.title)) = some (some 0x03#8, none) := by decide

/-- D-HDC10. -/
theorem test_hencode_roundTrip :
    (answer (exec .hencode { State.reset with hreg := HReg.ofHeader (decodeHeader (pattern 64)) })).map
      (fun s => s.hbuf.map fun b => b.toList) = some (some (pattern 64)) := by decide

/-- D-HDC6 to D-HDC9, the last under both settings of P_TITLE_TRUNC. -/
theorem test_normTitle :
    normTitle .byte [] = List.replicate 20 0x00#8 ∧
    normTitle .byte [0x48#8, 0x45#8, 0x4C#8, 0x4C#8, 0x4F#8] =
      [0x48#8, 0x45#8, 0x4C#8, 0x4C#8, 0x4F#8] ++ List.replicate 15 0x00#8 ∧
    normTitle .byte (List.replicate 19 0x41#8 ++ [0xC3#8, 0xA9#8]) = List.replicate 19 0x41#8 ++ [0xC3#8] ∧
    normTitle .charBoundary (List.replicate 19 0x41#8 ++ [0xC3#8, 0xA9#8]) = List.replicate 19 0x41#8 ++ [0x00#8] := by
  decide

/-- D-HDC12. -/
theorem test_utf8Valid : utf8Valid (List.replicate 20 0x00#8) = true ∧ utf8Valid [0xC3#8, 0xA9#8] = true ∧
    utf8Valid [0xDE#8, 0xAD#8, 0xBE#8, 0xEF#8] = false ∧ utf8Valid [0xC0#8, 0xAF#8] = false ∧
    utf8Valid [0xED#8, 0xA0#8, 0x80#8] = false := by decide

/-- D-HDC13: the pair of L1-4, written to H_CRC and CK; the other fields stay. -/
theorem test_hrecomp_writes :
    (fun s => (s.hreg.crcHi, s.hreg.crcLo, s.ckHi, s.hreg.cfgFlags)) (finishRun .hrecomp (0xFAC847DA#32, 0xB2DEA121#32)
      { State.reset with hreg := HReg.ofHeader (decodeHeader (pattern 64)) }) =
    (some 0xFAC847DA#32, some 0xB2DEA121#32, some 0xFAC847DA#32, some 0x00010203#32) := by decide

/-- D-HDC11. -/
theorem test_hdefault_short : (answer (exec .hdefault (withZeros 0x100FFF))).map (fun s => (s.status, s.hreg)) =
    some (some 0x01#8, {}) := by decide

/-- D-HDC5: the default header with the pair of L1-4, encoded. -/
theorem test_hdefault_encoded : encodeHeader .byte (defaultHeader {} (0xFAC847DA#32, 0xB2DEA121#32)) =
    [0x80#8, 0x37#8, 0x12#8, 0x40#8, 0x00#8, 0x00#8, 0x00#8, 0x0F#8, 0x80#8, 0x01#8, 0x00#8, 0x00#8, 0x00#8, 0x00#8, 0x00#8, 0x00#8,
     0xFA#8, 0xC8#8, 0x47#8, 0xDA#8, 0xB2#8, 0xDE#8, 0xA1#8, 0x21#8] ++ List.replicate 35 0x00#8 ++
    [0x4E#8, 0x00#8, 0x00#8, 0x41#8, 0x00#8] := by decide

/-- 42_header_codec.md R101, and F_UNWRITTEN where a field is unwritten. -/
theorem test_hrender :
    (answer (exec .hrender { State.reset with hreg := HReg.ofHeader someHeader })).map (fun s => s.status) = some (some 0x00#8) ∧
    (answer (exec .hrender State.reset)).map (fun s => s.faults) = some { unwritten := true } := by decide

/-- 42_header_codec.md R101: numbers in hexadecimal, a character code, and a control code, whose show is
open. -/
theorem test_render_forms :
    hexText { (default : Config.FieldStyle) with upper := true, width := 8 } 0x0A0B0C0F =
      [0x30#8, 0x41#8, 0x30#8, 0x42#8, 0x30#8, 0x43#8, 0x30#8, 0x46#8] ∧
    hexText { (default : Config.FieldStyle) with width := 0 } 0 = [0x30#8] ∧
    hexText { (default : Config.FieldStyle) with width := 1 } 0x1A = [0x31#8, 0x61#8] ∧
    codeText 0x4E#8 [] = [0x4E#8] ∧ codeText 0x0A#8 [0x3F#8] = [0x3F#8] := by decide

/-! ### The image buffer -/

/-- 43_image_buffer.md R103: a draw that succeeds, and one that fails. -/
theorem test_load :
    (answer (exec .load { State.reset with srcDraws := [.bytes [0x10#8, 0x00#8]] })).bind imageOf = some [0x10#8, 0x00#8] ∧
    (answer (exec .load { State.reset with srcDraws := [.readFail] })).map (fun s => (s.status, s.img)) =
      some (some 0x05#8, none) := by decide

/-- 43_image_buffer.md R104, 60_exceptions.md R117: with IMG unwritten a failing draw is WriteError, and a draw that succeeds
ends in F_UNWRITTEN. -/
theorem test_store_unwritten :
    (answer (exec .store { State.reset with img := none, snkDraws := [.writeFail [0x01#8]] })).map
      (fun s => (s.status, s.faults, s.snk)) = some (some 0x06#8, {}, [0x01#8]) ∧
    (answer (exec .store { State.reset with img := none, snkDraws := [.ok] })).map (fun s => (s.status, s.faults)) =
      some (none, { unwritten := true }) := by decide

/-- 43_image_buffer.md R104. -/
theorem test_store :
    (answer (exec .store { withBytes [0x00#8, 0xAA#8] with snkDraws := [.ok] })).map (fun s => s.snk) = some [0x00#8, 0xAA#8] ∧
    (answer (exec .store { withBytes [0x00#8] with snkDraws := [.writeFail []] })).map (fun s => s.status) =
      some (some 0x06#8) := by decide

/-- D-BUF6. -/
theorem test_hoverwrite_short : (answer (exec .hoverwrite { withZeros 16 with hbuf := some (hbufOf 0x01#8) })).map
    (fun s => (s.status, s.faults)) = some (none, { shortOverwrite := true }) := by decide

/-- L1-6, at the shortest image: the length stays, the bytes are HBUF's. -/
theorem test_hoverwrite : (answer (exec .hoverwrite { withBytes (pattern 65) with hbuf := some (hbufOf 0xAA#8) })).bind imageOf =
    some (List.replicate 64 0xAA#8 ++ [0x40#8]) := by decide

/-- D-BUF7, and the move of an old byte (43_image_buffer.md R106). -/
theorem test_hprepend : (answer (exec .hprepend { withBytes [0x07#8] with hbuf := some (hbufOf 0xAA#8) })).bind imageOf =
    some (List.replicate 64 0xAA#8 ++ [0x07#8]) := by decide

/-- D-BUF1. -/
theorem test_padTo : (answer (exec (.padTo 0x00#8) { withBytes [0x01#8, 0x02#8, 0x03#8] with arg0 := some 5 })).bind imageOf =
    some [0x01#8, 0x02#8, 0x03#8, 0x00#8, 0x00#8] := by decide

/-- D-BUF2. -/
theorem test_padTo_neverShrinks : (answer (exec (.padTo 0xFF#8) { withBytes (pattern 8) with arg0 := some 4 })).bind imageOf =
    some (pattern 8) := by decide

/-- D-BUF3. -/
theorem test_padBy_zero : (answer (exec (.padBy 0xFF#8) { withBytes (pattern 8) with arg0 := some 0 })).bind imageOf =
    some (pattern 8) := by decide

/-- 95_test_vectors.md P4 line 7, in small. -/
theorem test_padBy : (answer (exec (.padBy 0xFF#8) { withBytes [0x10#8] with arg0 := some 2 })).bind imageOf =
    some [0x10#8, 0xFF#8, 0xFF#8] := by decide

/-- D-BUF5. -/
theorem test_injectAt : (answer (exec .injectAt { withBytes (pattern 8) with arg0 := some 2, dbuf := some [0xAA#8, 0xBB#8] })).bind
    imageOf = some [0x00#8, 0x01#8, 0xAA#8, 0xBB#8, 0x04#8, 0x05#8, 0x06#8, 0x07#8] := by decide

/-- D-BUF4, in small: a gap of P_INJECT_FILL. -/
theorem test_injectAt_gap : (answer (exec .injectAt { withBytes [0x10#8] with arg0 := some 3, dbuf := some [0xDE#8, 0xAD#8] })).bind
    imageOf = some [0x10#8, 0x00#8, 0x00#8, 0xDE#8, 0xAD#8] := by decide

/-! ### The step -/

/-- 95_test_vectors.md P5 line 2: a refused command leaves STATUS. -/
theorem test_step_refused :
    (answer (step { withZeros 16 with status := some 0x00#8, hostOps := [.write 0x00 (.num 0x00000101)] })).map
      (fun s => (s.refused, s.status, s.hostOps)) = some (true, some 0x00#8, []) := by decide

/-- 95_test_vectors.md P1 line 3. -/
theorem test_step_read : (answer (step { State.reset with status := some 0x01#8, hostOps := [.read 0x01] })).map
    (fun s => s.replies) = some [.num 0x01] := by decide

/-- The placed word runs as the first command after reset: CHECKSUM of the empty image (D-CK9). -/
theorem test_step_withFetchWord : (answer (step (State.reset.withFetchWord 32 0x00000001))).map (fun s => s.status) =
    some (some 0x01#8) := by decide

/-- 41_checksum_engine.md R89: the first LOOP step takes the word at 0x1000 and moves WPTR on by 4. -/
theorem test_step_loop :
    (answer (step { withZeros 0x101000 with eng := .loop .checksum Acc.seed 0x1000 })).map (fun s => s.eng) =
    some (.loop .checksum { Acc.seed with wsum := ckInitial + ckInitial } 0x1004) := by decide

/-! ### Witnesses: the hypotheses of each statement, met together -/

theorem witness_ReservedWordsRefused : ∀ w ∈ [0x00000000#32, 0x00000007#32, 0x0000000F#32, 0x00000017#32, 0x000000FF#32,
    0x00010001#32, 0x00000101#32, 0x00000116#32], Reserved w ∧
    ∃ (s : State) (ops : List HostOp), s.eng = .idle ∧ s.hostOps = .write 0x00 (.num w.toNat) :: ops := by
  intro w hw
  refine ⟨?_, { State.reset with hostOps := [.write 0x00 (.num w.toNat)] }, [], rfl, rfl⟩
  simp only [List.mem_cons, List.not_mem_nil, or_false] at hw
  unfold Reserved
  rcases hw with rfl | rfl | rfl | rfl | rfl | rfl | rfl | rfl <;> decide

theorem witness_StepRunsDecodedCommand_atomic : ∃ (s : State) (ops : List HostOp) (w : Word) (i : Instr), s.eng = .idle ∧
    s.hostOps = .write 0x00 (.num w.toNat) :: ops ∧ decode w = .ok i ∧ s.params.grain = .atomic :=
  ⟨{ State.reset with hostOps := [.write 0x00 (.num 0x01)] }, [], 0x01#32, .checksum, rfl, rfl, rfl, rfl⟩

theorem witness_StepRunsDecodedCommand_steps : ∃ (s : State) (ops : List HostOp) (w : Word) (i : Instr) (c : RunCmd),
    s.eng = .idle ∧ s.hostOps = .write 0x00 (.num w.toNat) :: ops ∧ decode w = .ok i ∧ s.params.grain = .wordSteps ∧
    runCmd i = some c :=
  ⟨{ State.reset with params := { grain := .wordSteps }, hostOps := [.write 0x00 (.num 0x01)] }, [], 0x01#32, .checksum,
    .checksum, rfl, rfl, rfl, rfl, rfl⟩

theorem witness_PlacedWordRunsNext : ∃ (s : State) (w : Word) (i : Instr), s.params.grain = .atomic ∧ decode w = .ok i :=
  ⟨State.reset, 0x0000FF14#32, .padTo 0xFF#8, rfl, rfl⟩

/-- Every writable register, a number at the largest value its width admits, H_TITLE and DBUF at the empty string. -/
theorem witness_HostWriteSetsOneRegister_admits : State.reset.eng = .idle ∧
    (∀ rv ∈ [(0x02, HostVal.num 0xFFFFFFFFFFFFFFFF), (0x08, .bytes (List.replicate 64 0xAA#8)), (0x09, .bytes []),
        (0x10, .num 0xFFFFFFFF), (0x11, .num 0xFFFFFFFF), (0x12, .num 0xFFFFFFFF), (0x13, .num 0xFFFFFFFF),
        (0x16, .num 0xFFFFFFFFFFFFFFFF), (0x17, .bytes []), (0x18, .num 0xFFFFFFFFFFFFFF), (0x19, .num 0xFF),
        (0x1A, .num 0xFFFF), (0x1B, .num 0xFF), (0x1C, .num 0xFF)],
      ∃ t, RegisterWrite State.reset rv.1 rv.2 t) := by
  refine ⟨rfl, fun rv h => ?_⟩
  simp only [List.mem_cons, List.not_mem_nil, or_false] at h
  rcases h with rfl | rfl | rfl | rfl | rfl | rfl | rfl | rfl | rfl | rfl | rfl | rfl | rfl | rfl
  · exact ⟨_, .arg0 _ (by decide)⟩
  · exact ⟨_, .hbuf (hbufOf 0xAA#8)⟩
  · exact ⟨_, .dbuf []⟩
  · exact ⟨_, .cfgFlags 0xFFFFFFFF#32⟩
  · exact ⟨_, .clockRate 0xFFFFFFFF#32⟩
  · exact ⟨_, .bootAddress 0xFFFFFFFF#32⟩
  · exact ⟨_, .luVersion 0xFFFFFFFF#32⟩
  · exact ⟨_, .reserved1 0xFFFFFFFFFFFFFFFF#64⟩
  · exact ⟨_, .title [] (by decide)⟩
  · exact ⟨_, .reserved2 0xFFFFFFFFFFFFFF#56⟩
  · exact ⟨_, .category 0xFF#8⟩
  · exact ⟨_, .unique 0xFFFF#16⟩
  · exact ⟨_, .destination 0xFF#8⟩
  · exact ⟨_, .version 0xFF#8⟩

/-- A number that an admitted write sets fits its register, and no register listed last takes a number. -/
theorem registerWrite_num {s t : State} {r n : Nat} (h : RegisterWrite s r (.num n) t) : n < 2 ^ max 64 s.params.argBits ∧
    (r = 0x18 → n < 2 ^ 56) ∧ (r = 0x10 → n < 2 ^ 32) ∧ (r = 0x1A → n < 2 ^ 16) ∧ (r = 0x1C → n < 2 ^ 8) ∧
    r ∉ [0x01, 0x03, 0x05, 0x08, 0x09, 0x0A, 0x14, 0x15, 0x17, 0x1D] := by
  have hle : (2 : Nat) ^ 64 ≤ 2 ^ max 64 s.params.argBits := Nat.pow_le_pow_right (by decide) (le_max_left _ _)
  cases h
  case arg0 hn =>
    exact ⟨lt_of_lt_of_le hn (Nat.pow_le_pow_right (by decide) (le_max_right _ _)), by omega, by omega, by omega, by omega,
      by decide⟩
  all_goals
    rename_i x
    have hx := x.isLt
    exact ⟨by omega, by omega, by omega, by omega, by omega, by decide⟩

/-- One past the width, a number for a byte string, a read-only and a reserved register; a wrong length, an invalid title. -/
theorem witness_HostWriteSetsOneRegister_refuses : State.reset.eng = .idle ∧
    (∀ rn ∈ [(0x02, 2 ^ 64), (0x10, 2 ^ 32), (0x18, 2 ^ 56), (0x1A, 2 ^ 16), (0x1C, 2 ^ 8), (0x08, 0), (0x17, 0), (0x03, 0), (0x14, 0),
        (0x1D, 0)], rn.1 ≠ 0x00 ∧ ∀ t, ¬ RegisterWrite State.reset rn.1 (.num rn.2) t) ∧
    (∀ t, ¬ RegisterWrite State.reset 0x08 (.bytes []) t) ∧ (∀ t, ¬ RegisterWrite State.reset 0x17 (.bytes [0xC0#8]) t) := by
  refine ⟨rfl, fun rn hr => ?_, fun t h => ?_, fun t h => ?_⟩
  · simp only [List.mem_cons, List.not_mem_nil, or_false] at hr
    rcases hr with rfl | rfl | rfl | rfl | rfl | rfl | rfl | rfl | rfl | rfl <;> refine ⟨by decide, fun t h => ?_⟩ <;>
      have := registerWrite_num h <;> revert this <;> decide
  · generalize hv : HostVal.bytes [] = v at h
    cases h
    case hbuf b =>
      have := congrArg List.length (HostVal.bytes.inj hv)
      simp at this
  · cases h
    case title h => exact absurd h (by decide)

theorem witness_HostWriteSetsOneRegister_cmd : State.reset.eng = .idle ∧
    (∀ n, HostVal.num 0x100000000 = .num n → 0x100000000 ≤ n) ∧ (∀ n, HostVal.bytes [] = .num n → 2 ^ 32 ≤ n) :=
  ⟨rfl, fun n h => by injection h with h; omega, fun _ h => by cases h⟩

theorem witness_engineBusy : ({ State.reset with eng := .seed .checksum } : State).eng ≠ .idle := by decide

/-- A register of each kind that is written, one that is not, CMD and a reserved number. -/
theorem witness_HostReadReturnsRegister :
    ({ withZeros 3 with status := some 0x05#8, hbuf := some (hbufOf 0x01#8) } : State).eng = .idle ∧
    (0x01, some (.num 0x05)) ∈ readable { withZeros 3 with status := some 0x05#8, hbuf := some (hbufOf 0x01#8) } ∧
    (0x05, some (.num 3)) ∈ readable { withZeros 3 with status := some 0x05#8, hbuf := some (hbufOf 0x01#8) } ∧
    (0x08, some (.bytes (List.replicate 64 0x01#8))) ∈
      readable { withZeros 3 with status := some 0x05#8, hbuf := some (hbufOf 0x01#8) } ∧
    (0x03, none) ∈ readable { withZeros 3 with status := some 0x05#8, hbuf := some (hbufOf 0x01#8) } ∧
    (0x1C, none) ∈ readable { withZeros 3 with status := some 0x05#8, hbuf := some (hbufOf 0x01#8) } ∧
    ReservedRegister 0x06 ∧ ReservedRegister 0x1D := by
  unfold ReservedRegister
  decide

theorem witness_ReservedRegistersRefused : ∀ r ∈ [0x06, 0x07, 0x0B, 0x0F, 0x1D], ReservedRegister r := by
  unfold ReservedRegister
  decide

/-- The last byte, and one byte past it. -/
theorem witness_HostReadImgReturnsBytes : ∃ m, (withZeros 4).img = some m ∧ (withZeros 4).eng = .idle ∧ 3 + 1 ≤ m.len ∧
    m.len < 4 + 1 ∧ 0x02 ≠ 0x00 ∧ ∃ t, hostWrite 0x02 (.num 0) (withZeros 4) = .next t :=
  ⟨{ len := 4, cells := [] }, rfl, rfl, by decide, by decide, by decide, _, rfl⟩

theorem witness_RunningEngineBlocksHost : ∃ s t : State, s.eng ≠ .idle ∧ step s = .next t :=
  ⟨{ State.reset with eng := .seed .checksum }, _, by decide, rfl⟩

theorem witness_RotIsRotateLeft : (0x00000020#32).toNat % 32 = 0 := by decide

/-- No word, all the words of the window. -/
theorem witness_CarryCountsOverflows : 0 ≤ 0x40000 ∧ 0x40000 ≤ 0x40000 := by decide

theorem witness_AuxTieBranches : Acc.seed.aux ≠ 0#32 ∧ Acc.seed.aux = 0xF8CA4DDC#32 := by decide

/-- One byte short, and just long enough. -/
theorem witness_ChecksumFoldsWindow : (Memory.mk 0x100FFF []).len < 0x101000 ∧ 0x101000 ≤ (Memory.mk 0x101000 []).len := by
  decide

/-- Two images that differ just before the window. -/
theorem witness_ChecksumReadsWindowOnly : ∃ m m' : Memory, m ≠ m' ∧ 0x101000 ≤ m.len ∧ 0x101000 ≤ m'.len ∧
    ∀ a, 0x1000 ≤ a → a < 0x101000 → m.byte a = m'.byte a := by
  refine ⟨⟨0x101000, []⟩, ⟨0x101000, [(0xFFF, 0x01#8)]⟩, by decide, by decide, by decide, fun a h _ => ?_⟩
  simp [Memory.byte, byteAt, show 0xFFF < a by omega]

theorem witness_ZeroWindowPair : ∃ m : Memory, 0x101000 ≤ m.len ∧ ∀ a, 0x1000 ≤ a → a < 0x101000 → m.byte a = 0x00#8 :=
  ⟨⟨0x101000, []⟩, by decide, fun _ _ _ => rfl⟩

/-- For the commands that run ChecksumFn: an image that is long enough, and one a byte short. -/
theorem witness_windowCommands : ∃ m m' : Memory, (withZeros 0x101000).img = some m ∧ 0x101000 ≤ m.len ∧
    (withZeros 0x100FFF).img = some m' ∧ m'.len < 0x101000 :=
  ⟨⟨0x101000, []⟩, ⟨0x100FFF, []⟩, rfl, by decide, rfl, by decide⟩

theorem witness_ChecksumCommandCompletes : ∃ (s : State) (m : Memory), s.img = some m ∧ 0x101000 ≤ m.len :=
  ⟨withZeros 0x101000, _, rfl, by decide⟩

theorem witness_HrecompCommandCompletes : ∃ (s : State) (m : Memory), s.img = some m ∧ 0x101000 ≤ m.len :=
  ⟨withZeros 0x101001, _, rfl, by decide⟩

theorem witness_HdefaultCommandCompletes : ∃ (s : State) (m : Memory), s.img = some m ∧ 0x101000 ≤ m.len :=
  ⟨withZeros 0x101000, _, rfl, by decide⟩

theorem witness_ChecksumTwiceSame : ∃ t, exec .checksum (withZeros 0x101000) = .next t := exec_next _ _

theorem witness_WordStepsEqualOneTransition : ∃ (s : State) (m : Memory) (i : Instr) (c : RunCmd), s.eng = .idle ∧
    s.img = some m ∧ runCmd i = some c ∧ 0x101000 ≤ m.len :=
  ⟨withZeros 0x101000, _, .hdefault, .hdefault, rfl, rfl, rfl, by decide⟩

/-- 63 bytes; 64 bytes with a title that is not valid; 64 bytes with one that is. -/
theorem witness_HdecodeCommandCompletes :
    (∃ m, (withZeros 63).img = some m ∧ m.len < 64) ∧
    (∃ m, (withBytes ((pattern 64).set 0x20 0xFF#8)).img = some m ∧ 64 ≤ m.len ∧
      titleOk State.reset.params ((List.range 20).map fun k => m.byte (0x20 + k)) = false) ∧
    (∃ m, (withBytes (pattern 64)).img = some m ∧ 64 ≤ m.len ∧
      titleOk State.reset.params ((List.range 20).map fun k => m.byte (0x20 + k)) = true) :=
  ⟨⟨_, rfl, by decide⟩, ⟨_, rfl, by decide, by decide⟩, ⟨_, rfl, by decide, by decide⟩⟩

/-- For HENCODE and HRENDER. -/
theorem witness_headerWritten : ∃ (s : State) (h : Header), s.hreg.full = some h :=
  ⟨{ State.reset with hreg := HReg.ofHeader someHeader }, someHeader, rfl⟩

theorem witness_HencodeCommandCompletes : ∃ (s : State) (h : Header), s.hreg.full = some h := witness_headerWritten

theorem witness_HrenderCommandCompletes : ∃ (s : State) (h : Header), s.hreg.full = some h := witness_headerWritten

theorem witness_EncodedHeaderIsSixtyFourBytes : ∃ s t : State, exec .hencode s = .next t := ⟨State.reset, exec_next _ _⟩

/-- 20 and 21 bytes. -/
theorem witness_NormTitleIsTwentyBytes : (pattern 20).length ≤ 20 ∧ 20 < (pattern 21).length := by decide

theorem witness_CharBoundaryKeepsTextValid : utf8Valid (List.replicate 19 0x41#8 ++ [0xC3#8, 0xA9#8]) = true := by decide

theorem witness_UtfEightIsSequences : State.reset.params.titleCheck = .utf8 := rfl

theorem witness_HeaderRoundTrip : ∃ (s : State) (h : Header) (m : Memory), s.hreg.full = some h ∧ s.img = some m ∧ m.wf ∧
    64 ≤ m.len ∧ titleOk s.params (normTitle s.params.titleTrunc h.title) = true ∧
    titleOk s.params ((List.range 20).map fun k => m.byte (0x20 + k)) = true :=
  ⟨{ withZeros 64 with hreg := HReg.ofHeader someHeader }, someHeader, ⟨64, []⟩, rfl, rfl, by decide, by decide, by decide,
    by decide⟩

/-- A draw fixed in advance that P_IMG_MAX admits at its very bound, one it does not, a failure, and no bound. -/
theorem witness_LoadCommandCompletes :
    (∃ (s : State) (src : List Byte), s.drawLoad.1 = .bytes src ∧ pastImgMax s.params src.length = false) ∧
    (∃ (s : State) (src : List Byte), s.drawLoad.1 = .bytes src ∧ pastImgMax s.params src.length = true) ∧
    (∃ s : State, s.drawLoad.1 = .readFail) ∧ State.reset.params.imgMax = none :=
  ⟨⟨{ State.reset with params := { imgMax := some 2 }, srcDraws := [.bytes (pattern 2)] }, pattern 2, rfl, by decide⟩,
    ⟨{ State.reset with params := { imgMax := some 2 }, srcDraws := [.bytes (pattern 3)] }, pattern 3, rfl, by decide⟩,
    ⟨{ State.reset with srcDraws := [.readFail] }, rfl⟩, rfl⟩

theorem witness_StoreCommandCompletes :
    (∃ (s : State) (m : Memory), s.img = some m ∧ s.drawStore.1 = .ok) ∧
    (∃ (s : State) (m : Memory) (sunk : List Byte), s.img = some m ∧ s.drawStore.1 = .writeFail sunk) ∧
    (∃ (s : State) (sunk : List Byte), s.img = none ∧ s.drawStore.1 = .writeFail sunk) ∧
    (∃ s : State, s.img = none ∧ s.drawStore.1 = .ok) :=
  ⟨⟨{ withZeros 2 with snkDraws := [.ok] }, _, rfl, rfl⟩, ⟨{ withZeros 2 with snkDraws := [.writeFail [0x01#8]] }, _, _, rfl, rfl⟩,
    ⟨{ State.reset with img := none, snkDraws := [.writeFail [0x01#8]] }, _, rfl, rfl⟩,
    ⟨{ State.reset with img := none, snkDraws := [.ok] }, rfl, rfl⟩⟩

/-- 64 bytes and 63. -/
theorem witness_HoverwriteCommandCompletes :
    (∃ (s : State) (m : Memory) (b : Vector Byte 64), s.img = some m ∧ s.hbuf = some b ∧ 64 ≤ m.len ∧ m.wf) ∧
    (∃ (s : State) (m : Memory), s.img = some m ∧ m.len < 64) :=
  ⟨⟨{ withZeros 64 with hbuf := some (hbufOf 0x01#8) }, ⟨64, []⟩, _, rfl, rfl, by decide, by decide⟩,
    ⟨withZeros 63, _, rfl, by decide⟩⟩

/-- At the bound P_IMG_MAX, and one past it. -/
theorem witness_HprependCommandCompletes :
    (∃ (s : State) (m : Memory) (b : Vector Byte 64), s.img = some m ∧ s.hbuf = some b ∧
      pastImgMax s.params (m.len + 64) = false ∧ m.wf) ∧
    (∃ (s : State) (m : Memory), s.img = some m ∧ pastImgMax s.params (m.len + 64) = true) :=
  ⟨⟨{ withZeros 1 with hbuf := some (hbufOf 0x01#8), params := { imgMax := some 65 } }, ⟨1, []⟩, _, rfl, rfl, by decide, by decide⟩,
    ⟨{ withZeros 2 with params := { imgMax := some 65 } }, ⟨2, []⟩, rfl, by decide⟩⟩

/-- Growth, growth past P_IMG_MAX, and an image that has the target's length already. -/
theorem witness_PadToCommandCompletes :
    (∃ (s : State) (m : Memory) (target : Nat), s.img = some m ∧ s.arg0 = some target ∧ m.len < target ∧
      pastImgMax s.params target = false ∧ m.wf) ∧
    (∃ (s : State) (m : Memory) (target : Nat), s.img = some m ∧ s.arg0 = some target ∧ m.len < target ∧
      pastImgMax s.params target = true) ∧
    (∃ (s : State) (m : Memory) (target : Nat), s.img = some m ∧ s.arg0 = some target ∧ target ≤ m.len) :=
  ⟨⟨{ withZeros 3 with arg0 := some 4 }, ⟨3, []⟩, 4, rfl, rfl, by decide, by decide, by decide⟩,
    ⟨{ withZeros 3 with arg0 := some 4, params := { imgMax := some 3 } }, ⟨3, []⟩, 4, rfl, rfl, by decide, by decide⟩,
    ⟨{ withZeros 4 with arg0 := some 4 }, ⟨4, []⟩, 4, rfl, rfl, by decide⟩⟩

theorem witness_PadByCommandCompletes :
    (∃ (s : State) (m : Memory) (count : Nat), s.img = some m ∧ s.arg0 = some count ∧
      pastImgMax s.params (m.len + count) = false ∧ m.wf) ∧
    (∃ (s : State) (m : Memory) (count : Nat), s.img = some m ∧ s.arg0 = some count ∧
      pastImgMax s.params (m.len + count) = true) :=
  ⟨⟨{ withZeros 3 with arg0 := some 1, params := { imgMax := some 4 } }, ⟨3, []⟩, 1, rfl, rfl, by decide, by decide⟩,
    ⟨{ withZeros 3 with arg0 := some 2, params := { imgMax := some 4 } }, ⟨3, []⟩, 2, rfl, rfl, by decide⟩⟩

/-- No growth, growth with a gap, and growth past P_IMG_MAX. -/
theorem witness_InjectAtCommandCompletes :
    (∃ (s : State) (m : Memory) (offset : Nat) (data : List Byte), s.img = some m ∧ s.arg0 = some offset ∧
      s.dbuf = some data ∧ offset + data.length ≤ m.len ∧ m.wf) ∧
    (∃ (s : State) (m : Memory) (offset : Nat) (data : List Byte), s.img = some m ∧ s.arg0 = some offset ∧
      s.dbuf = some data ∧ m.len < offset ∧ pastImgMax s.params (offset + data.length) = false ∧ m.wf) ∧
    (∃ (s : State) (m : Memory) (offset : Nat) (data : List Byte), s.img = some m ∧ s.arg0 = some offset ∧
      s.dbuf = some data ∧ m.len < offset + data.length ∧ pastImgMax s.params (offset + data.length) = true) :=
  ⟨⟨{ withZeros 8 with arg0 := some 6, dbuf := some (pattern 2) }, ⟨8, []⟩, 6, pattern 2, rfl, rfl, rfl, by decide, by decide⟩,
    ⟨{ withZeros 8 with arg0 := some 9, dbuf := some (pattern 2) }, ⟨8, []⟩, 9, pattern 2, rfl, rfl, rfl, by decide, by decide,
      by decide⟩,
    ⟨{ withZeros 8 with arg0 := some 7, dbuf := some (pattern 2), params := { imgMax := some 8 } }, ⟨8, []⟩, 7, pattern 2, rfl,
      rfl, rfl, by decide, by decide⟩⟩

/-- A command of each kind that completes. -/
theorem witness_ImageLengthLaws :
    ∀ si ∈ [({ withZeros 64 with hbuf := some (hbufOf 0x01#8) }, Instr.hoverwrite),
        ({ withZeros 1 with hbuf := some (hbufOf 0x01#8) }, Instr.hprepend), ({ withZeros 1 with arg0 := some 2 }, Instr.padTo 0xFF#8),
        ({ withZeros 1 with arg0 := some 2 }, Instr.padBy 0xFF#8),
        ({ withZeros 1 with arg0 := some 2, dbuf := some (pattern 2) }, Instr.injectAt),
        ({ withZeros 1 with srcDraws := [.bytes (pattern 2)] }, Instr.load), (withZeros 1, Instr.hdecode)],
      si.1.img.isSome = true ∧ ∃ t, exec si.2 si.1 = .next t ∧ t.Clean := by
  intro si h
  simp only [List.mem_cons, List.not_mem_nil, or_false] at h
  rcases h with rfl | rfl | rfl | rfl | rfl | rfl | rfl <;> exact ⟨rfl, _, rfl, by decide⟩

theorem witness_PrependMovesWindow : 0x100FC0 ≤ (Memory.mk 0x100FC0 []).len := by decide

theorem witness_EqualImagesAreEqualData : ∃ m m' : Memory, m.wf ∧ m'.wf ∧ m.len = m'.len ∧
    ∀ a, a < m.len → m.byte a = m'.byte a :=
  ⟨⟨2, [(1, 0x05#8)]⟩, ⟨2, [(1, 0x05#8)]⟩, by decide, by decide, rfl, fun _ _ => rfl⟩

/-- An error of a command that has no draw, of LOAD, and of STORE. -/
theorem witness_ErrorsWriteStatusOnly :
    ∀ si ∈ [(withZeros 63, Instr.hdecode), ({ State.reset with srcDraws := [.readFail] }, Instr.load),
        ({ withZeros 1 with snkDraws := [.writeFail []] }, Instr.store)],
      ∃ t code, exec si.2 si.1 = .next t ∧ t.Clean ∧ t.status = some code ∧ code ≠ 0x00#8 := by
  intro si h
  simp only [List.mem_cons, List.not_mem_nil, or_false] at h
  rcases h with rfl | rfl | rfl <;> exact ⟨_, _, rfl, by decide, rfl, by decide⟩

theorem witness_CompletionWritesStatus : ∃ t, exec .hdecode (withZeros 64) = .next t ∧ t.Clean := ⟨_, rfl, by decide⟩

/-- Each error code is raised somewhere. -/
theorem witness_ErrorCodesHaveCauses :
    ∀ sic ∈ [(withZeros 0x100FFF, Instr.hrecomp, 0x01#8), (withZeros 63, Instr.hdecode, 0x02#8),
        (withBytes ((pattern 64).set 0x20 0xFF#8), Instr.hdecode, 0x03#8),
        ({ State.reset with srcDraws := [.readFail] }, Instr.load, 0x05#8),
        ({ withZeros 1 with snkDraws := [.writeFail []] }, Instr.store, 0x06#8)],
      ∃ t, exec sic.2.1 sic.1 = .next t ∧ t.Clean ∧ t.status = some sic.2.2 := by
  intro sic h
  simp only [List.mem_cons, List.not_mem_nil, or_false] at h
  rcases h with rfl | rfl | rfl | rfl | rfl <;> exact ⟨_, rfl, by decide, by decide⟩

/-- A fault, a faulting STORE, a refusal, and a refused LOAD. -/
theorem witness_FaultsAndRefusalsChangeNothing :
    (∃ t, exec .hrender State.reset = .next t ∧ t.faults ≠ State.reset.faults) ∧
    (∃ (s : State) (t : State), exec .store s = .next t ∧ t.faults ≠ s.faults) ∧
    (∃ (s : State) (t : State), exec (.padBy 0x00#8) s = .next t ∧ s.refused = false ∧ t.refused = true) ∧
    (∃ (s : State) (t : State), exec .load s = .next t ∧ s.refused = false ∧ t.refused = true) :=
  ⟨⟨_, rfl, by decide⟩, ⟨{ State.reset with img := none, snkDraws := [.ok] }, _, rfl, by decide⟩,
    ⟨{ withZeros 3 with arg0 := some 2, params := { imgMax := some 4 } }, _, rfl, rfl, rfl⟩,
    ⟨{ State.reset with params := { imgMax := some 2 }, srcDraws := [.bytes (pattern 3)] }, _, rfl, rfl, rfl⟩⟩

/-- An operation of each kind, and none. -/
theorem witness_StepTakesHostOperation : State.reset.eng = .idle ∧ State.reset.hostOps = [] ∧
    ∀ op ∈ [HostOp.write 0x02 (.num 1), .read 0x01, .readImg 0 0], ∃ s : State, s.eng = .idle ∧ s.hostOps = op :: [] :=
  ⟨rfl, rfl, fun op _ => ⟨{ State.reset with hostOps := [op] }, rfl, rfl⟩⟩

theorem witness_HostReadImgUnwrittenFaults : ({ State.reset with img := none } : State).img = none ∧
    ({ State.reset with img := none } : State).eng = .idle ∧
    ({ State.reset with img := none, eng := .seed .checksum } : State).eng ≠ .idle := by decide

/-- Two states with the same image and different histories. -/
theorem witness_ChecksumIgnoresHistory : ∃ (s s' : State) (m : Memory), s ≠ s' ∧ s.img = some m ∧ s'.img = some m ∧
    s.params.auxTie = s'.params.auxTie ∧ 0x101000 ≤ m.len :=
  ⟨withZeros 0x101000, { withZeros 0x101000 with ckHi := some 1#32, status := some 0x03#8 }, _, by decide, rfl, rfl, rfl,
    by decide⟩

theorem witness_HrenderTextKeepsItsForm : ∃ (s : State) (h : Header), s.hreg.full = some h := witness_headerWritten

theorem witness_ParametersNeverWritten : ∃ t, step { State.reset with hostOps := [.read 0x01] } = .next t := ⟨_, rfl⟩

/-- IMG unwritten, HREG with one field unwritten, HBUF, ARG0 and DBUF unwritten. -/
theorem witness_UnwrittenOperandsFault :
    (({ State.reset with img := none } : State).img = none ∧ ReadsImage .checksum) ∧
    (({ State.reset with img := none, snkDraws := [.ok] } : State).img = none ∧
      ({ State.reset with img := none, snkDraws := [.ok] } : State).drawStore.1 = .ok) ∧
    ({ HReg.ofHeader someHeader with version := none } : HReg).full = none ∧
    ((withZeros 64).hbuf = none ∧ ∃ m, (withZeros 64).img = some m ∧ 64 ≤ m.len ∧
      pastImgMax (withZeros 64).params (m.len + 64) = false) ∧
    State.reset.arg0 = none ∧ State.reset.dbuf = none :=
  ⟨⟨rfl, trivial⟩, ⟨rfl, rfl⟩, rfl, ⟨rfl, _, rfl, by decide, by decide⟩, rfl, rfl⟩

theorem witness_CommandsWriteOnlyTheirRegisters : ∃ t, exec .hdecode (withZeros 64) = .next t := exec_next _ _

/-- A step from a state in which every mark is set. -/
theorem witness_MarksAreSticky : ∃ s t : State, step s = .next t ∧ s.faults.unwritten = true ∧ s.faults.shortOverwrite = true ∧
    s.faults.layout = true ∧ s.refused = true :=
  ⟨{ State.reset with faults := ⟨true, true, true⟩, refused := true }, _, rfl, rfl, rfl, rfl, rfl⟩

/-- While a run is under way. -/
theorem witness_InvariantKeptByStep : ∃ s t : State, s.Inv ∧ step s = .next t := by
  refine ⟨{ withZeros 0x101000 with eng := .loop .checksum Acc.seed 0x1000 }, _, ?_, rfl⟩
  refine ⟨?_, ?_, ?_, ?_, by decide, ?_, rfl, rfl, rfl, ⟨⟨⟨0x101000, []⟩, rfl, by decide⟩, by decide, by decide, by decide⟩⟩
  · intro m h
    cases h
    decide
  · intro m h
    cases h
    rfl
  all_goals
    intro b h
    cases h

end Sys2Proof.Tests
end

/-! ## What HOST's operations and a step of ENGINE can do

One inversion lemma per shared operation, so that an invariant of `step` follows by cases on these and on `Result`. -/

section
namespace Sys2Proof.Machine

/-- A command write is one transition of the command, or starts a run of ChecksumFn (41_checksum_engine.md R89). -/
theorem issue_cases {i : Instr} {s t : State} (h : issue i s = .next t) :
    exec i s = .next t ∨ ∃ c, runCmd i = some c ∧ t = startRun c s := by
  unfold issue at h
  split at h
  case h_1 c _ hc =>
    cases h
    exact Or.inr ⟨c, hc, rfl⟩
  case h_2 => exact Or.inl h
  case h_3 => exact Or.inl h

/-- A read of a register is refused, records F_UNWRITTEN, or returns a value (10_state.md R22). -/
theorem hostRead_cases (r : Nat) (s : State) :
    hostRead r s = s.refuse ∨ hostRead r s = s.fault .unwritten ∨ ∃ v, hostRead r s = s.reply v := by
  unfold hostRead
  split
  case isFalse => exact Or.inl rfl
  case isTrue =>
    split
    case h_1 => exact Or.inl rfl
    case h_2 =>
      split
      · exact Or.inl rfl
      · exact Or.inr (Or.inl rfl)
      · exact Or.inr (Or.inr ⟨_, rfl⟩)

/-- A read of IMG is refused, records F_UNWRITTEN, or returns bytes (20_memory.md R45). -/
theorem hostReadImg_cases (a n : Nat) (s : State) :
    hostReadImg a n s = s.refuse ∨ hostReadImg a n s = s.fault .unwritten ∨ ∃ v, hostReadImg a n s = s.reply v := by
  unfold hostReadImg
  split
  case isFalse => exact Or.inl rfl
  case isTrue =>
    rcases Option.eq_none_or_eq_some s.img with hm | ⟨m, hm⟩
    · exact Or.inr (Or.inl (need_of_none hm))
    · rw [need_of_some hm]
      split
      · exact Or.inl rfl
      · exact Or.inr (Or.inr ⟨_, rfl⟩)

/-- A write of a register other than CMD sets ARG0, HBUF, DBUF or HREG and nothing else (10_state.md R20, R32). -/
theorem regWrite_frame {s t : State} {r : Reg} {v : HostVal} (h : s.regWrite r v = some t) :
    t = { s with arg0 := t.arg0, hbuf := t.hbuf, dbuf := t.dbuf, hreg := t.hreg } := by
  cases r with
  | cmd | status | ckHi | ckLo | imgLen | rtxt | hCrcHi | hCrcLo => cases h
  | _ =>
    obtain ⟨_, _, rfl⟩ := Option.map_eq_some_iff.mp h
    rfl

/-- A HostWrite is refused, issues a command, or sets a register; the last two while ENGINE is IDLE (10_state.md R21,
R23). -/
theorem hostWrite_cases {r : Nat} {v : HostVal} {s t : State} (h : hostWrite r v s = .next t) :
    t = s.refuse ∨ (s.engIdle = true ∧ ∃ i, issue i s = .next t) ∨
    (s.engIdle = true ∧ ∃ reg, s.regWrite reg v = some t) := by
  unfold hostWrite at h
  split at h
  case isFalse => exact Or.inl (Host.Outcome.next.inj h).symm
  case isTrue hi =>
    split at h
    case h_1 => exact Or.inl (Host.Outcome.next.inj h).symm
    case h_2 =>
      split at h
      case h_1 => exact Or.inl (Host.Outcome.next.inj h).symm
      case h_2 w _ =>
        unfold commandWrite at h
        split at h
        case h_1 => exact Or.inl (Host.Outcome.next.inj h).symm
        case h_2 i _ => exact Or.inr (Or.inl ⟨hi, i, h⟩)
    case h_3 reg _ _ =>
      rcases hw : s.regWrite reg v with _ | u
      · rw [hw] at h
        exact Or.inl (Host.Outcome.next.inj h).symm
      · rw [hw] at h
        exact Or.inr (Or.inr ⟨hi, reg, hw.trans (congrArg some (Host.Outcome.next.inj h))⟩)

end Sys2Proof.Machine
end

/-! ## No step writes the parameters (00_scope.md R10) -/

section
namespace Sys2Proof.Machine

theorem drawStore_params (s : State) : s.drawStore.2.params = s.params := by
  rw [drawStore_frame]

@[simp] theorem finishChecksum_params (s : State) (pair : Word × Word) : (s.finishChecksum pair).params = s.params := rfl

@[simp] theorem finishHrecomp_params (s : State) (pair : Word × Word) : (s.finishHrecomp pair).params = s.params := rfl

@[simp] theorem finishHdefault_params (s : State) (pair : Word × Word) : (s.finishHdefault pair).params = s.params := rfl

@[simp] theorem finishRun_params (c : RunCmd) (pair : Word × Word) (s : State) :
    (finishRun c pair s).params = s.params := by
  cases c <;> rfl

@[simp] theorem startRun_params (c : RunCmd) (s : State) : (startRun c s).params = s.params := by
  unfold startRun
  rcases Option.eq_none_or_eq_some s.img with hm | ⟨m, hm⟩
  · rw [need_of_none hm, fault_params]
  · rw [need_of_some hm]
    split <;> rfl

@[simp] theorem engineStep_params (s : State) : (engineStep s).params = s.params := by
  unfold engineStep
  split
  case h_1 | h_2 => rfl
  case h_3 =>
    split
    · split <;> rfl
    · rfl
  case h_4 => exact finishRun_params _ _ _

/-- No command writes the parameters. -/
theorem Result.params_eq {i : Instr} {s t : State} (h : Result s i t) : t.params = s.params := by
  cases h with
  | load | loadPast | loadFail => exact drawLoad_params s
  | store | storeUnwritten | storeFail => exact drawStore_params s
  | _ => rfl

theorem issue_params {i : Instr} {s t : State} (h : issue i s = .next t) : t.params = s.params := by
  rcases issue_cases h with he | ⟨c, _, rfl⟩
  · exact (result_of_exec he).params_eq
  · exact startRun_params c s

theorem hostWrite_params {r : Nat} {v : HostVal} {s t : State} (h : hostWrite r v s = .next t) :
    t.params = s.params := by
  rcases hostWrite_cases h with rfl | ⟨_, i, hi⟩ | ⟨_, reg, hw⟩
  · exact refuse_params s
  · exact issue_params hi
  · rw [regWrite_frame hw]

@[simp] theorem hostRead_params (r : Nat) (s : State) : (hostRead r s).params = s.params := by
  rcases hostRead_cases r s with h | h | ⟨v, h⟩ <;> rw [h] <;> rfl

@[simp] theorem hostReadImg_params (a n : Nat) (s : State) : (hostReadImg a n s).params = s.params := by
  rcases hostReadImg_cases a n s with h | h | ⟨v, h⟩ <;> rw [h] <;> rfl

theorem hostStep_params {op : HostOp} {s t : State} (h : hostStep op s = .next t) : t.params = s.params := by
  cases op with
  | write r v => exact hostWrite_params h
  | read r =>
    cases h
    exact hostRead_params r s
  | readImg a n =>
    cases h
    exact hostReadImg_params a n s

/-- Settles O50, by the agent whose step it is: ENGINE, an idle HOST, or HOST's next operation. -/
theorem parametersNeverWritten : Obligations.ParametersNeverWritten := by
  intro s t h
  rcases step_cases s with ⟨_, hs⟩ | ⟨_, _, hs⟩ | ⟨op, ops, _, _, hs⟩ <;> rw [hs] at h
  · cases h
    exact engineStep_params s
  · cases h
    rfl
  · have ht : t.params = ({ s with hostOps := ops } : State).params := hostStep_params h
    exact ht

end Sys2Proof.Machine
end

/-! ## The checksum of a written image, as the claims state it, and HDEFAULT -/

section
namespace Sys2Proof.Machine

open Sys2Proof.Claims

/-- A window word is its four bytes, the most significant first (20_memory.md R48). -/
theorem word_eq_ofNat (m : Memory) (a : Nat) :
    m.word a = BitVec.ofNat 32 ((m.byte a).toNat * 2 ^ 24 + (m.byte (a + 1)).toNat * 2 ^ 16 +
      (m.byte (a + 2)).toNat * 2 ^ 8 + (m.byte (a + 3)).toNat) := by
  have hbe (b₀ b₁ b₂ b₃ : Byte) :
      be [b₀, b₁, b₂, b₃] = b₀.toNat * 2 ^ 24 + b₁.toNat * 2 ^ 16 + b₂.toNat * 2 ^ 8 + b₃.toNat := by
    simp only [be, List.foldl_cons, List.foldl_nil]
    omega
  rw [Memory.word, hbe]

/-- The window ends at address 0x101000 (00_scope.md R9). -/
theorem ckMinLen_eq : ckMinLen = 0x101000 := rfl

theorem wordsFrom_eq (m : Memory) (a : Nat) :
    wordsFrom m a = (List.range ckWords).map fun k => m.word (a + 4 * k) := by
  simp only [wordsFrom, word_eq_ofNat, ckWords, ckLen, Nat.reduceDiv]

/-- ChecksumFn on an image that reaches the window's end (41_checksum_engine.md R76, R78, R84). -/
theorem checksumFn_of_long (tie : Config.AuxTie) {m : Memory} (hl : 0x101000 ≤ m.len) :
    checksumFn tie m = some (pairOf tie (wordsFrom m 0x1000)) := by
  rw [checksumFn, ckMinLen_eq, if_neg (Nat.not_lt.mpr hl), windowLoop_eq_foldl, wordsFrom_eq]
  rfl

/-- ChecksumFn on a shorter image (41_checksum_engine.md R76). -/
theorem checksumFn_of_short (tie : Config.AuxTie) {m : Memory} (hl : m.len < 0x101000) : checksumFn tie m = none :=
  if_pos hl

theorem withPair_of_long {s : State} {m : Memory} (k : Word × Word → State) (hm : s.img = some m)
    (hl : 0x101000 ≤ m.len) : s.withPair k = k (pairOf s.params.auxTie (wordsFrom m 0x1000)) := by
  rw [State.withPair, need_of_some hm, checksumFn_of_long _ hl]

theorem withPair_of_short {s : State} {m : Memory} (k : Word × Word → State) (hm : s.img = some m)
    (hl : m.len < 0x101000) : s.withPair k = s.raise .insufficientData := by
  rw [State.withPair, need_of_some hm, checksumFn_of_short _ hl]

/-- HDEFAULT is `finishHdefault` on the window's pair (42_header_codec.md R100). -/
theorem exec_hdefault (s : State) : exec .hdefault s = .next (s.withPair fun pair => s.finishHdefault pair) := rfl

/-- Settles O27: HDEFAULT goes on with the pair of the window's words, or raises InsufficientData. -/
theorem hdefaultCommandCompletes : Obligations.HdefaultCommandCompletes := by
  intro s m hm
  constructor
  · intro hl
    rw [exec_hdefault, withPair_of_long _ hm hl]
    rfl
  · intro hl
    rw [exec_hdefault, withPair_of_short _ hm hl]
    rfl

end Sys2Proof.Machine
end

/-! ## Everything a step can do, said once

`HostResult` is for HOST's operations, and `EngineResult` for ENGINE, what `Result` is for the commands. -/

section
namespace Sys2Proof.Machine

/-- What an operation of HOST can do to a state. -/
inductive HostResult (s : State) : State → Prop
  | refuse : HostResult s s.refuse
  | fault : HostResult s (s.fault .unwritten)
  | reply (v : HostVal) : HostResult s (s.reply v)
  | register (t : State) (he : s.eng = .idle) (reg : Reg) (v : HostVal) (hw : s.regWrite reg v = some t) : HostResult s t
  | command (t : State) (he : s.eng = .idle) (i : Instr) (hr : Result s i t) : HostResult s t
  | startShort (m : Memory) (hm : s.img = some m) (hl : m.len < ckMinLen) : HostResult s (s.raise .insufficientData)
  | start (c : RunCmd) (m : Memory) (hm : s.img = some m) (hl : ckMinLen ≤ m.len) : HostResult s { s with eng := .seed c }

/-- What a step of ENGINE can do to a state (41_checksum_engine.md R89). -/
inductive EngineResult (s : State) : State → Prop
  | seed (c : RunCmd) (he : s.eng = .seed c) : EngineResult s { s with eng := .loop c Acc.seed ckStart }
  | word (c : RunCmd) (acc : Acc) (wptr : Nat) (he : s.eng = .loop c acc wptr) (hl : wptr < ckMinLen) (w : Word) :
      EngineResult s { s with eng := .loop c (wordStep s.params.auxTie acc w) (wptr + 4) }
  | noWord : EngineResult s (State.fault { s with eng := .idle } .unwritten)
  | fold (c : RunCmd) (acc : Acc) (wptr : Nat) (he : s.eng = .loop c acc wptr) (hl : ckMinLen ≤ wptr) :
      EngineResult s { s with eng := .fold c acc wptr }
  | finish (c : RunCmd) (pair : Word × Word) : EngineResult s (finishRun c pair { s with eng := .idle })

theorem engIdle_iff (s : State) : s.engIdle = true ↔ s.eng = .idle := by
  simp [State.engIdle]

theorem issue_result {i : Instr} {s t : State} (he : s.eng = .idle) (h : issue i s = .next t) : HostResult s t := by
  rcases issue_cases h with hx | ⟨c, _, rfl⟩
  · exact .command t he i (result_of_exec hx)
  · unfold startRun
    rcases Option.eq_none_or_eq_some s.img with hm | ⟨m, hm⟩
    · rw [need_of_none hm]
      exact .fault
    · rw [need_of_some hm]
      split
      · exact .startShort m hm (by assumption)
      · exact .start c m hm (by omega)

/-- HOST's operations answer what `HostResult` lists. -/
theorem hostStep_result {op : HostOp} {s t : State} (h : hostStep op s = .next t) : HostResult s t := by
  cases op with
  | write r v =>
    rcases hostWrite_cases h with rfl | ⟨hi, i, ht⟩ | ⟨hi, reg, hw⟩
    · exact .refuse
    · exact issue_result ((engIdle_iff s).mp hi) ht
    · exact .register t ((engIdle_iff s).mp hi) reg v hw
  | read r =>
    cases h
    rcases hostRead_cases r s with h | h | ⟨v, h⟩ <;> rw [h]
    exacts [.refuse, .fault, .reply v]
  | readImg a n =>
    cases h
    rcases hostReadImg_cases a n s with h | h | ⟨v, h⟩ <;> rw [h]
    exacts [.refuse, .fault, .reply v]

/-- ENGINE's steps answer what `EngineResult` lists. -/
theorem engineStep_result {s : State} (he : s.eng ≠ .idle) : EngineResult s (engineStep s) := by
  unfold engineStep
  split
  case h_1 hi => exact absurd hi he
  case h_2 c hs => exact .seed c hs
  case h_3 c acc wptr hs =>
    split
    case isTrue hl =>
      split
      · exact .noWord
      · exact .word c acc wptr hs hl _
    case isFalse hl => exact .fold c acc wptr hs (by omega)
  case h_4 c acc _ _ => exact .finish c acc.fold

/-- A step is one of ENGINE, none at all, or one operation of HOST on the state with it taken (10_state.md R17). -/
theorem step_result {s t : State} (h : step s = .next t) :
    (s.eng ≠ .idle ∧ EngineResult s t) ∨ t = s ∨ ∃ ops, HostResult { s with hostOps := ops } t := by
  rcases step_cases s with ⟨he, hs⟩ | ⟨_, _, hs⟩ | ⟨op, ops, _, _, hs⟩ <;> rw [hs] at h
  · cases h
    exact Or.inl ⟨he, engineStep_result he⟩
  · cases h
    exact Or.inr (Or.inl rfl)
  · exact Or.inr (Or.inr ⟨ops, hostStep_result h⟩)

end Sys2Proof.Machine
end

/-! ## The invariant of the machine -/

section
namespace Sys2Proof.Machine

/-! ### What keeps it: one rule per operation on the state -/

/-- Every code but that of SliceBoundsError is one the invariant admits (60_exceptions.md R111). -/
theorem errCode_reachable (e : Err) (he : e ≠ .sliceBoundsError) : e.code.toNat ≤ 6 ∧ e.code.toNat ≠ 4 := by
  cases e with
  | sliceBoundsError => exact absurd rfl he
  | _ => decide

theorem runOk_of_idle {s : State} (he : s.eng = .idle) : s.runOk := by
  unfold State.runOk
  rw [he]
  trivial

theorem State.Inv.setStatus {s : State} (h : s.Inv) {code : Byte} (hc : code.toNat ≤ 6 ∧ code.toNat ≠ 4) :
    (s.setStatus code).Inv :=
  { h with statusCode := fun _ hb => Option.some.inj hb ▸ hc }

theorem State.Inv.ok {s : State} (h : s.Inv) : s.ok.Inv := h.setStatus (by decide)

theorem State.Inv.raise {s : State} (h : s.Inv) {e : Err} (he : e ≠ .sliceBoundsError) : (s.raise e).Inv :=
  h.setStatus (errCode_reachable e he)

theorem State.Inv.fault {s : State} (h : s.Inv) {f : Fault} (hf : f ≠ .layout) : (s.fault f).Inv :=
  { h with
    noLayout := by
      cases f with
      | layout => exact absurd rfl hf
      | _ => exact h.noLayout }

theorem State.Inv.refuse {s : State} (h : s.Inv) : s.refuse.Inv := { h with }

theorem State.Inv.reply {s : State} (h : s.Inv) (v : HostVal) : (s.reply v).Inv := { h with }

theorem State.Inv.hostOps {s : State} (h : s.Inv) (ops : List HostOp) : ({ s with hostOps := ops } : State).Inv :=
  { h with }

theorem State.Inv.drawLoad {s : State} (h : s.Inv) : s.drawLoad.2.Inv := by
  rw [drawLoad_frame]
  exact { h with }

theorem State.Inv.drawStore {s : State} (h : s.Inv) : s.drawStore.2.Inv := by
  rw [drawStore_frame]
  exact { h with }

theorem State.Inv.withSnk {s : State} (h : s.Inv) (b : List Byte) : ({ s with snk := b } : State).Inv := { h with }

/-- A run under way ties IMG down, so IMG changes only while ENGINE is IDLE. -/
theorem State.Inv.withImg {s : State} (h : s.Inv) (he : s.eng = .idle) {m : Memory} (hw : m.wf)
    (hp : pastImgMax s.params m.len = false) : ({ s with img := some m } : State).Inv :=
  { h with
    imgWf := fun _ hm => Option.some.inj hm ▸ hw
    imgMax := fun _ hm => Option.some.inj hm ▸ hp
    runUnderWay := runOk_of_idle he }

theorem State.Inv.withoutImg {s : State} (h : s.Inv) (he : s.eng = .idle) : ({ s with img := none } : State).Inv :=
  { h with
    imgWf := fun _ hm => nomatch hm
    imgMax := fun _ hm => nomatch hm
    runUnderWay := runOk_of_idle he }

/-- A header record as a whole has the checksum pair together. -/
theorem State.Inv.withHeader {s : State} (h : s.Inv) {hd : Header} (ht : titleOk s.params hd.title = true) :
    ({ s with hreg := HReg.ofHeader hd } : State).Inv :=
  { h with
    titleText := fun _ htt => Option.some.inj htt ▸ ht
    crcTogether := rfl }

theorem State.Inv.withPair {s : State} (h : s.Inv) (pair : Word × Word) :
    ({ s with ckHi := some pair.1, ckLo := some pair.2 } : State).Inv :=
  { h with pairTogether := rfl }

theorem State.Inv.withEng {s : State} (h : s.Inv) {e : Engine} (hr : ({ s with eng := e } : State).runOk) :
    ({ s with eng := e } : State).Inv :=
  { h with runUnderWay := hr }

/-! ### The commands -/

theorem State.Inv.finishChecksum {s : State} (h : s.Inv) (pair : Word × Word) : (s.finishChecksum pair).Inv :=
  (h.withPair pair).ok

theorem State.Inv.finishHrecomp {s : State} (h : s.Inv) (pair : Word × Word) : (s.finishHrecomp pair).Inv :=
  State.Inv.ok { h.withPair pair with crcTogether := rfl }

theorem State.Inv.finishHdefault {s : State} (h : s.Inv) (pair : Word × Word) : (s.finishHdefault pair).Inv :=
  ((h.withPair pair).withHeader (hd := defaultHeader s.params.defaults pair) h.titleDefault).ok

theorem State.Inv.finishRun {s : State} (h : s.Inv) (c : RunCmd) (pair : Word × Word) : (finishRun c pair s).Inv := by
  cases c with
  | checksum => exact h.finishChecksum pair
  | hrecomp => exact h.finishHrecomp pair
  | hdefault => exact h.finishHdefault pair

/-- Every command keeps the invariant while ENGINE is IDLE: the image commands by the canonical form and the length of
the image they build, the others by the rule of the field they write. -/
theorem Result.inv {i : Instr} {s t : State} (hr : Result s i t) (h : s.Inv) (he : s.eng = .idle) : t.Inv := by
  cases hr with
  | fault _ f hf => exact h.fault hf
  | refuse => exact h.refuse
  | short => exact h.raise (by decide)
  | checksum _ _ _ pair => exact h.finishChecksum pair
  | hrecomp _ _ _ pair => exact h.finishHrecomp pair
  | hdefault _ _ _ pair => exact h.finishHdefault pair
  | truncated => exact h.raise (by decide)
  | badTitle => exact h.raise (by decide)
  | hdecode _ _ _ ht => exact (h.withHeader ht).ok
  | hencode => exact State.Inv.ok { h with }
  | hrender => exact State.Inv.ok { h with }
  | load src _ hp =>
    have hd := h.drawLoad
    rw [drawLoad_frame] at hd ⊢
    exact (hd.withImg he (ofBytes_wf src) hp).ok
  | loadPast => exact h.drawLoad.refuse
  | loadFail =>
    have hd := h.drawLoad
    rw [drawLoad_frame] at hd ⊢
    exact (hd.withoutImg he).raise (by decide)
  | store => exact (h.drawStore.withSnk _).ok
  | storeUnwritten => exact h.drawStore.fault (by decide)
  | storeFail sunk => exact (h.drawStore.withSnk sunk).raise (by decide)
  | hoverwrite m hm hl b =>
    have hlen : 0 + b.toList.length ≤ m.len := by simpa [hdrLen] using hl
    exact (h.withImg he (write_wf m 0 _ (h.imgWf m hm) hlen) (h.imgMax m hm)).ok
  | hprepend m hm hl b =>
    have hlen : (m.prepend b.toList).len = m.len + hdrLen := by simp [hdrLen, Nat.add_comm]
    exact (h.withImg he (prepend_wf m _ (h.imgWf m hm)) (hlen ▸ hl)).ok
  | padTo fill target _ m hm hl hp =>
    have hlen : (m.growTo target fill).len = target := by rw [growTo_len, max_eq_right hl.le]
    exact (h.withImg he (growTo_wf m target fill (h.imgWf m hm)) (hlen.symm ▸ hp)).ok
  | padToLong => exact h.ok
  | padBy fill count _ m hm hp =>
    have hlen : (m.append (List.replicate count fill)).len = m.len + count := by simp
    exact (h.withImg he (append_wf m _ (h.imgWf m hm)) (hlen.symm ▸ hp)).ok
  | injectGrow offset _ data _ m hm hl hp =>
    have hlen : (m.growTo (offset + data.length) s.params.injectFill).len = offset + data.length := by
      rw [growTo_len, max_eq_right hl.le]
    exact (h.withImg he (write_wf _ offset data (growTo_wf m _ _ (h.imgWf m hm)) hlen.ge) (hlen.symm ▸ hp)).ok
  | injectIn offset _ data _ m hm hl =>
    exact (h.withImg he (write_wf m offset data (h.imgWf m hm) hl) (h.imgMax m hm)).ok

/-! ### HOST's operations and ENGINE's steps -/

/-- A value fits `bits` bits exactly when it is a number below `2 ^ bits` (10_state.md R21). -/
theorem fitNat_eq_some {bits n : Nat} {v : HostVal} : fitNat bits v = some n ↔ v = .num n ∧ n < 2 ^ bits := by
  cases v with
  | num k =>
    simp only [fitNat, Option.ite_none_right_eq_some, Option.some.injEq, HostVal.num.injEq]
    constructor
    · rintro ⟨hk, rfl⟩
      exact ⟨rfl, hk⟩
    · rintro ⟨rfl, hk⟩
      exact ⟨hk, rfl⟩
  | bytes b => simp [fitNat]

/-- A HostWrite checks what the invariant asks of ARG0 and H_TITLE (10_state.md R21, R25, R32). -/
theorem regWrite_inv {s t : State} {r : Reg} {v : HostVal} (hw : s.regWrite r v = some t) (h : s.Inv) : t.Inv := by
  cases r with
  | cmd | status | ckHi | ckLo | imgLen | rtxt | hCrcHi | hCrcLo => cases hw
  | arg0 =>
    obtain ⟨n, hn, rfl⟩ := Option.map_eq_some_iff.mp hw
    exact { h with arg0Fits := fun _ hb => Option.some.inj hb ▸ (fitNat_eq_some.mp hn).2 }
  | hTitle =>
    obtain ⟨b, hb, rfl⟩ := Option.map_eq_some_iff.mp hw
    have hok : titleOk s.params b = true := (Option.filter_eq_some_iff.mp hb).2
    exact { h with titleText := fun _ ht => Option.some.inj ht ▸ hok }
  | _ =>
    obtain ⟨_, _, rfl⟩ := Option.map_eq_some_iff.mp hw
    exact { h with }

theorem HostResult.inv {s t : State} (hr : HostResult s t) (h : s.Inv) : t.Inv := by
  cases hr with
  | refuse => exact h.refuse
  | fault => exact h.fault (by decide)
  | reply v => exact h.reply v
  | register _ _ _ _ hw => exact regWrite_inv hw h
  | command _ he _ hc => exact hc.inv h he
  | startShort => exact h.raise (by decide)
  | start c m hm hl => exact h.withEng ⟨m, hm, hl⟩

/-- While a run is under way WPTR moves by 4 from 0x1000 and stops at 0x101000 (10_state.md R37). -/
theorem EngineResult.inv {s t : State} (hr : EngineResult s t) (h : s.Inv) : t.Inv := by
  have hrun := h.runUnderWay
  unfold State.runOk at hrun
  cases hr with
  | seed c he =>
    rw [he] at hrun
    exact h.withEng ⟨hrun, by decide⟩
  | word c acc wptr he hl =>
    rw [he] at hrun
    obtain ⟨hm, hlo, _, h4⟩ := hrun
    have hmod : ckMinLen % 4 = 0 := by decide
    exact h.withEng ⟨hm, by omega, by omega, by omega⟩
  | noWord => exact (h.withEng (e := .idle) trivial).fault (by decide)
  | fold c acc wptr he hl =>
    rw [he] at hrun
    obtain ⟨hm, _, hhi, _⟩ := hrun
    exact h.withEng ⟨hm, by omega⟩
  | finish c pair => exact (h.withEng (e := .idle) trivial).finishRun c pair

/-- Settles O53, by the agent whose step it is: ENGINE, an idle HOST, or HOST's next operation. -/
theorem invariantKeptByStep : Obligations.InvariantKeptByStep := by
  intro s t h hs
  rcases step_result hs with ⟨_, hr⟩ | rfl | ⟨ops, hr⟩
  · exact hr.inv h
  · exact h
  · exact hr.inv (h.hostOps ops)

/-- Settles O52: IMG is empty and everything else the invariant speaks of is unwritten. -/
theorem invariantAtReset : Obligations.InvariantAtReset where
  imgWf _ hm := Option.some.inj hm ▸ empty_wf
  imgMax _ _ := rfl
  statusCode _ hb := nomatch hb
  arg0Fits _ hn := nomatch hn
  titleDefault := rfl
  titleText _ ht := nomatch ht
  pairTogether := rfl
  crcTogether := rfl
  noLayout := rfl
  runUnderWay := trivial

end Sys2Proof.Machine
end

/-! ## The marks FAULTS and REFUSED, and the frame of ENGINE's steps -/

section
namespace Sys2Proof.Machine

/-- FAULTS holds at least what it held, and REFUSED stays set (10_state.md R41). -/
structure MarksKept (s t : State) : Prop where
  unwritten : s.faults.unwritten = true → t.faults.unwritten = true
  shortOverwrite : s.faults.shortOverwrite = true → t.faults.shortOverwrite = true
  layout : s.faults.layout = true → t.faults.layout = true
  refused : s.refused = true → t.refused = true

theorem marksKept_of_eq {s t : State} (hf : t.faults = s.faults) (hr : t.refused = s.refused) : MarksKept s t := by
  constructor <;> simp [hf, hr]

theorem marksKept_fault (s : State) (f : Fault) : MarksKept s (s.fault f) := by
  cases f <;> constructor <;> simp +contextual [FaultSet.insert]

theorem marksKept_refuse (s : State) : MarksKept s s.refuse := ⟨id, id, id, fun _ => rfl⟩

theorem MarksKept.trans {s t u : State} (h : MarksKept s t) (h' : MarksKept t u) : MarksKept s u :=
  ⟨h'.unwritten ∘ h.unwritten, h'.shortOverwrite ∘ h.shortOverwrite, h'.layout ∘ h.layout, h'.refused ∘ h.refused⟩

theorem marksKept_drawLoad (s : State) : MarksKept s s.drawLoad.2 := by
  rw [drawLoad_frame]
  exact marksKept_of_eq rfl rfl

theorem marksKept_drawStore (s : State) : MarksKept s s.drawStore.2 := by
  rw [drawStore_frame]
  exact marksKept_of_eq rfl rfl

theorem Result.marksKept {i : Instr} {s t : State} (h : Result s i t) : MarksKept s t := by
  cases h with
  | fault => exact marksKept_fault s _
  | refuse => exact marksKept_refuse s
  | loadPast => exact (marksKept_drawLoad s).trans (marksKept_refuse _)
  | storeUnwritten => exact (marksKept_drawStore s).trans (marksKept_fault _ _)
  | load | loadFail => exact (marksKept_drawLoad s).trans (marksKept_of_eq rfl rfl)
  | store | storeFail => exact (marksKept_drawStore s).trans (marksKept_of_eq rfl rfl)
  | _ => exact marksKept_of_eq rfl rfl

theorem HostResult.marksKept {s t : State} (h : HostResult s t) : MarksKept s t := by
  cases h with
  | refuse => exact marksKept_refuse s
  | fault => exact marksKept_fault s _
  | register _ _ _ _ hw =>
    rw [regWrite_frame hw]
    exact marksKept_of_eq rfl rfl
  | command _ _ _ hr => exact hr.marksKept
  | reply | startShort | start => exact marksKept_of_eq rfl rfl

/-- The end of a run writes STATUS, the checksum pair and HREG (41_checksum_engine.md R88, 42_header_codec.md R99,
R100). -/
theorem finishRun_frame (c : RunCmd) (pair : Word × Word) (s : State) :
    finishRun c pair s = { s with
      status := (finishRun c pair s).status
      ckHi := (finishRun c pair s).ckHi
      ckLo := (finishRun c pair s).ckLo
      hreg := (finishRun c pair s).hreg } := by
  cases c <;> rfl

/-- A step of ENGINE writes ENG, what the end of a run writes, and FAULTS. -/
theorem EngineResult.frame {s t : State} (h : EngineResult s t) :
    t = { s with
      status := t.status, ckHi := t.ckHi, ckLo := t.ckLo, hreg := t.hreg, eng := t.eng, faults := t.faults } := by
  cases h with
  | finish c pair =>
    rw [finishRun_frame]
  | _ => rfl

theorem EngineResult.marksKept {s t : State} (h : EngineResult s t) : MarksKept s t := by
  cases h with
  | noWord =>
    have hidle : MarksKept s { s with eng := .idle } := marksKept_of_eq rfl rfl
    exact hidle.trans (marksKept_fault _ _)
  | finish c pair =>
    rw [finishRun_frame]
    exact marksKept_of_eq rfl rfl
  | _ => exact marksKept_of_eq rfl rfl

theorem step_marksKept {s t : State} (h : step s = .next t) : MarksKept s t := by
  rcases step_result h with ⟨_, hr⟩ | rfl | ⟨ops, hr⟩
  · exact hr.marksKept
  · exact marksKept_of_eq rfl rfl
  · have hops : MarksKept s { s with hostOps := ops } := marksKept_of_eq rfl rfl
    exact hops.trans hr.marksKept

/-- Settles O49: a step keeps the marks, and a register's content is read from the other fields. -/
theorem marksAreSticky : Obligations.MarksAreSticky := by
  refine ⟨⟨rfl, rfl⟩, fun s t h => ?_, fun s fs r reg => ?_⟩
  · obtain ⟨hu, hs, hl, hr⟩ := step_marksKept h
    exact ⟨hu, hs, hl, hr⟩
  · cases reg <;> rfl

/-- Settles O11: while ENG is not IDLE the step is one of ENGINE, and its frame holds every field named. -/
theorem runningEngineBlocksHost : Obligations.RunningEngineBlocksHost := by
  intro s t he h
  rcases step_cases s with ⟨_, hs⟩ | ⟨hi, _⟩ | ⟨_, _, hi, _⟩
  · rw [hs] at h
    cases h
    rw [(engineStep_result he).frame]
    exact ⟨rfl, rfl, rfl, rfl, rfl, rfl, rfl, rfl, rfl, rfl, rfl, rfl⟩
  · exact absurd hi he
  · exact absurd hi he

end Sys2Proof.Machine
end

/-! ## The frame of every command -/

section
namespace Sys2Proof.Machine

/-- `s` with the fields that command `i` may write taken from `t`: STATUS and the marks, and then the
registers that 10_state.md R20 lets that command write, with IMG and the draws (20_memory.md R46, 10_state.md R42). -/
def writtenFrom (i : Instr) (s t : State) : State :=
  let u := { s with status := t.status, faults := t.faults, refused := t.refused }
  match i with
  | .checksum => { u with ckHi := t.ckHi, ckLo := t.ckLo }
  | .hdecode => { u with hreg := t.hreg }
  | .hencode => { u with hbuf := t.hbuf }
  | .hrecomp =>
    { u with hreg := { s.hreg with crcHi := t.hreg.crcHi, crcLo := t.hreg.crcLo }, ckHi := t.ckHi, ckLo := t.ckLo }
  | .hdefault => { u with hreg := t.hreg, ckHi := t.ckHi, ckLo := t.ckLo }
  | .hrender => { u with rtxt := t.rtxt }
  | .load => { u with img := t.img, srcDraws := t.srcDraws, ioCount := t.ioCount }
  | .store => { u with snkDraws := t.snkDraws, ioCount := t.ioCount, snk := t.snk }
  | .hoverwrite => { u with img := t.img }
  | .hprepend => { u with img := t.img }
  | .padTo _ => { u with img := t.img }
  | .padBy _ => { u with img := t.img }
  | .injectAt => { u with img := t.img }

/-- A state that differs from `s` in STATUS and the marks only is within the frame of every command. -/
theorem eq_writtenFrom_of_marks (i : Instr) {s t : State}
    (h : t = { s with status := t.status, faults := t.faults, refused := t.refused }) : t = writtenFrom i s t := by
  obtain ⟨⟩ := t
  cases h
  cases i <;> rfl

theorem Result.frame {i : Instr} {s t : State} (h : Result s i t) : t = writtenFrom i s t := by
  cases h with
  | fault => exact eq_writtenFrom_of_marks i rfl
  | refuse => exact eq_writtenFrom_of_marks i rfl
  | short => exact eq_writtenFrom_of_marks i rfl
  | load | loadPast | loadFail =>
    rw [drawLoad_frame]
    rfl
  | store | storeUnwritten | storeFail =>
    rw [drawStore_frame]
    rfl
  | _ => rfl

section
variable (i : Instr) (s t : State)

theorem writtenFrom_fixed : (writtenFrom i s t).arg0 = s.arg0 ∧ (writtenFrom i s t).dbuf = s.dbuf ∧
    (writtenFrom i s t).eng = s.eng ∧ (writtenFrom i s t).params = s.params ∧
    (writtenFrom i s t).hostOps = s.hostOps ∧ (writtenFrom i s t).replies = s.replies := by
  cases i <;> exact ⟨rfl, rfl, rfl, rfl, rfl, rfl⟩

theorem writtenFrom_hreg (h₁ : i ≠ .hdecode) (h₂ : i ≠ .hrecomp) (h₃ : i ≠ .hdefault) :
    (writtenFrom i s t).hreg = s.hreg := by
  cases i with
  | hdecode => exact absurd rfl h₁
  | hrecomp => exact absurd rfl h₂
  | hdefault => exact absurd rfl h₃
  | _ => rfl

theorem writtenFrom_hbuf (h : i ≠ .hencode) : (writtenFrom i s t).hbuf = s.hbuf := by
  cases i with
  | hencode => exact absurd rfl h
  | _ => rfl

theorem writtenFrom_rtxt (h : i ≠ .hrender) : (writtenFrom i s t).rtxt = s.rtxt := by
  cases i with
  | hrender => exact absurd rfl h
  | _ => rfl

theorem writtenFrom_ck (h₁ : i ≠ .checksum) (h₂ : i ≠ .hrecomp) (h₃ : i ≠ .hdefault) :
    (writtenFrom i s t).ckHi = s.ckHi ∧ (writtenFrom i s t).ckLo = s.ckLo := by
  cases i with
  | checksum => exact absurd rfl h₁
  | hrecomp => exact absurd rfl h₂
  | hdefault => exact absurd rfl h₃
  | _ => exact ⟨rfl, rfl⟩

theorem writtenFrom_img (h : i = .checksum ∨ i = .hdecode ∨ i = .hencode ∨ i = .hrecomp ∨ i = .hdefault ∨ i = .hrender ∨
    i = .store) : (writtenFrom i s t).img = s.img := by
  rcases h with rfl | rfl | rfl | rfl | rfl | rfl | rfl <;> rfl

theorem writtenFrom_srcDraws (h : i ≠ .load) : (writtenFrom i s t).srcDraws = s.srcDraws := by
  cases i with
  | load => exact absurd rfl h
  | _ => rfl

theorem writtenFrom_sink (h : i ≠ .store) :
    (writtenFrom i s t).snkDraws = s.snkDraws ∧ (writtenFrom i s t).snk = s.snk := by
  cases i with
  | store => exact absurd rfl h
  | _ => exact ⟨rfl, rfl⟩

theorem writtenFrom_ioCount (h₁ : i ≠ .load) (h₂ : i ≠ .store) : (writtenFrom i s t).ioCount = s.ioCount := by
  cases i with
  | load => exact absurd rfl h₁
  | store => exact absurd rfl h₂
  | _ => rfl

end

/-- Settles O48: each clause reads one field of `writtenFrom`. -/
theorem commandsWriteOnlyTheirRegisters : Obligations.CommandsWriteOnlyTheirRegisters := by
  intro i s t h
  have hrecomp : i = .hrecomp →
      { (writtenFrom i s t).hreg with crcHi := s.hreg.crcHi, crcLo := s.hreg.crcLo } = s.hreg := by
    rintro rfl
    rfl
  obtain ⟨harg0, hdbuf, heng, hparams, hops, hreplies⟩ := writtenFrom_fixed i s t
  rw [(result_of_exec h).frame]
  exact ⟨harg0, hdbuf, heng, hparams, hops, hreplies, writtenFrom_hreg i s t, hrecomp, writtenFrom_hbuf i s t,
    writtenFrom_rtxt i s t, writtenFrom_ck i s t, writtenFrom_img i s t, writtenFrom_srcDraws i s t,
    writtenFrom_sink i s t, writtenFrom_ioCount i s t⟩

end Sys2Proof.Machine
end

/-! ## HOST's operations, register by register -/

section
namespace Sys2Proof.Machine

open Sys2Proof.Claims

/-- The number of a register (10_state.md R20, R32). -/
def Reg.num : Reg → Nat
  | .cmd => 0x00
  | .status => 0x01
  | .arg0 => 0x02
  | .ckHi => 0x03
  | .ckLo => 0x04
  | .imgLen => 0x05
  | .hbuf => 0x08
  | .dbuf => 0x09
  | .rtxt => 0x0A
  | .hCfgFlags => 0x10
  | .hClockRate => 0x11
  | .hBootAddress => 0x12
  | .hLuVersion => 0x13
  | .hCrcHi => 0x14
  | .hCrcLo => 0x15
  | .hReserved1 => 0x16
  | .hTitle => 0x17
  | .hReserved2 => 0x18
  | .hCategory => 0x19
  | .hUnique => 0x1A
  | .hDestination => 0x1B
  | .hVersion => 0x1C

@[simp] theorem ofNum_num (reg : Reg) : Reg.ofNum reg.num = some reg := by
  cases reg <;> rfl

/-- A number names a register exactly when it is that register's number. -/
theorem ofNum_eq_some {r : Nat} {reg : Reg} : Reg.ofNum r = some reg ↔ r = reg.num := by
  constructor
  · intro h
    unfold Reg.ofNum at h
    split at h <;> cases h <;> rfl
  · rintro rfl
    exact ofNum_num reg

/-- A reserved number names no register (10_state.md R31). -/
theorem ofNum_of_reserved {r : Nat} (h : ReservedRegister r) : Reg.ofNum r = none := by
  rw [Option.eq_none_iff_forall_ne_some]
  intro reg hreg
  rw [ofNum_eq_some.mp hreg] at h
  cases reg <;> simp [ReservedRegister, Reg.num] at h

/-! ### One equation per operation and case -/

theorem hostWrite_busy {s : State} (he : s.eng ≠ .idle) (r : Nat) (v : HostVal) : hostWrite r v s = .next s.refuse :=
  if_neg (mt (engIdle_iff s).mp he)

theorem hostRead_busy {s : State} (he : s.eng ≠ .idle) (r : Nat) : hostRead r s = s.refuse :=
  if_neg (mt (engIdle_iff s).mp he)

theorem hostReadImg_busy {s : State} (he : s.eng ≠ .idle) (a n : Nat) : hostReadImg a n s = s.refuse :=
  if_neg (mt (engIdle_iff s).mp he)

theorem hostReadImg_unwritten {s : State} (he : s.eng = .idle) (hm : s.img = none) (a n : Nat) :
    hostReadImg a n s = s.fault .unwritten := by
  unfold hostReadImg
  rw [if_pos ((engIdle_iff s).mpr he), need_of_none hm]

theorem hostWrite_reserved (s : State) {r : Nat} (v : HostVal) (hr : Reg.ofNum r = none) :
    hostWrite r v s = .next s.refuse := by
  unfold hostWrite
  rw [hr]
  exact ite_self _

theorem hostRead_reserved (s : State) {r : Nat} (hr : Reg.ofNum r = none) : hostRead r s = s.refuse := by
  unfold hostRead
  rw [hr]
  exact ite_self _

/-- A write of a register other than CMD. -/
theorem hostWrite_register {s : State} (he : s.eng = .idle) {reg : Reg} (hc : reg ≠ .cmd) (v : HostVal) :
    hostWrite reg.num v s = .next ((s.regWrite reg v).getD s.refuse) := by
  unfold hostWrite
  rw [if_pos ((engIdle_iff s).mpr he), ofNum_num]
  cases reg with
  | cmd => exact absurd rfl hc
  | _ => rfl

/-- A write of CMD, by what the value is as a command word. -/
theorem hostWrite_cmd {s : State} (he : s.eng = .idle) (v : HostVal) :
    hostWrite 0x00 v s = (fitBits 32 v).elim (.next s.refuse) (fun w => commandWrite w s) := by
  unfold hostWrite
  rw [if_pos ((engIdle_iff s).mpr he)]
  cases fitBits 32 v <;> rfl

theorem hostRead_value {s : State} (he : s.eng = .idle) {reg : Reg} {v : HostVal} (hc : s.regContent reg = .value v) :
    hostRead reg.num s = s.reply v := by
  simp only [hostRead, if_pos ((engIdle_iff s).mpr he), ofNum_num, hc]

theorem hostRead_unwritten {s : State} (he : s.eng = .idle) {reg : Reg} (hc : s.regContent reg = .unwritten) :
    hostRead reg.num s = s.fault .unwritten := by
  simp only [hostRead, if_pos ((engIdle_iff s).mpr he), ofNum_num, hc]

theorem hostRead_cmd (s : State) : hostRead 0x00 s = s.refuse := by
  unfold hostRead
  exact ite_self _

@[simp] theorem fitBits_toNat {w : Nat} (x : BitVec w) : fitBits w (.num x.toNat) = some x := by
  simp [fitBits, x.isLt]

/-- A value fits a register of `w` bits exactly when it is a number of that width (10_state.md R21). -/
theorem fitBits_eq_some {w : Nat} {v : HostVal} {x : BitVec w} : fitBits w v = some x ↔ v = .num x.toNat := by
  constructor
  · intro h
    unfold fitBits at h
    split at h
    case h_1 n =>
      split at h
      case isTrue hn =>
        cases h
        rw [BitVec.toNat_ofNat, Nat.mod_eq_of_lt hn]
      case isFalse => cases h
    case h_2 => cases h
  · rintro rfl
    exact fitBits_toNat x

theorem fitBytes_eq_some {v : HostVal} {b : List Byte} : fitBytes v = some b ↔ v = .bytes b := by
  cases v <;> simp [fitBytes]

/-! ### HostWrite -/

/-- `RegisterWrite` is `regWrite` of a register other than CMD, under its number. -/
theorem registerWrite_iff {s t : State} {r : Nat} {v : HostVal} :
    RegisterWrite s r v t ↔ ∃ reg, reg ≠ .cmd ∧ r = reg.num ∧ s.regWrite reg v = some t := by
  constructor
  · intro h
    cases h with
    | arg0 n hn =>
      exact ⟨.arg0, by decide, rfl, Option.map_eq_some_iff.mpr ⟨n, fitNat_eq_some.mpr ⟨rfl, hn⟩, rfl⟩⟩
    | hbuf b =>
      exact ⟨.hbuf, by decide, rfl, Option.map_eq_some_iff.mpr ⟨b, (toHbuf_some _ _).mpr rfl, rfl⟩⟩
    | dbuf b => exact ⟨.dbuf, by decide, rfl, rfl⟩
    | cfgFlags x => exact ⟨.hCfgFlags, by decide, rfl, by simp [State.regWrite]⟩
    | clockRate x => exact ⟨.hClockRate, by decide, rfl, by simp [State.regWrite]⟩
    | bootAddress x => exact ⟨.hBootAddress, by decide, rfl, by simp [State.regWrite]⟩
    | luVersion x => exact ⟨.hLuVersion, by decide, rfl, by simp [State.regWrite]⟩
    | reserved1 x => exact ⟨.hReserved1, by decide, rfl, by simp [State.regWrite]⟩
    | title b hb => exact ⟨.hTitle, by decide, rfl, by simp [State.regWrite, fitBytes, hb]⟩
    | reserved2 x => exact ⟨.hReserved2, by decide, rfl, by simp [State.regWrite]⟩
    | category x => exact ⟨.hCategory, by decide, rfl, by simp [State.regWrite]⟩
    | unique x => exact ⟨.hUnique, by decide, rfl, by simp [State.regWrite]⟩
    | destination x => exact ⟨.hDestination, by decide, rfl, by simp [State.regWrite]⟩
    | version x => exact ⟨.hVersion, by decide, rfl, by simp [State.regWrite]⟩
  · rintro ⟨reg, hc, rfl, hw⟩
    cases reg with
    | cmd | status | ckHi | ckLo | imgLen | rtxt | hCrcHi | hCrcLo => cases hw
    | arg0 =>
      obtain ⟨n, hn, rfl⟩ := Option.map_eq_some_iff.mp hw
      obtain ⟨rfl, hlt⟩ := fitNat_eq_some.mp hn
      exact .arg0 n hlt
    | hbuf =>
      obtain ⟨b, hb, rfl⟩ := Option.map_eq_some_iff.mp hw
      obtain ⟨l, hl, hlb⟩ := Option.bind_eq_some_iff.mp hb
      rw [fitBytes_eq_some.mp hl, ← (toHbuf_some l b).mp hlb]
      exact .hbuf b
    | dbuf =>
      obtain ⟨b, hb, rfl⟩ := Option.map_eq_some_iff.mp hw
      rw [fitBytes_eq_some.mp hb]
      exact .dbuf b
    | hTitle =>
      obtain ⟨b, hb, rfl⟩ := Option.map_eq_some_iff.mp hw
      obtain ⟨hv, hok⟩ := Option.filter_eq_some_iff.mp hb
      rw [fitBytes_eq_some.mp hv]
      exact .title b hok
    | _ =>
      obtain ⟨x, hx, rfl⟩ := Option.map_eq_some_iff.mp hw
      rw [fitBits_eq_some.mp hx]
      constructor

/-- Settles O7: by whether ENGINE is IDLE and what the number names. -/
theorem hostWriteSetsOneRegister : Obligations.HostWriteSetsOneRegister := by
  intro s r v
  refine ⟨fun he t ht => ?_, fun he h0 hno => ?_, fun he h0 hbig => ?_, fun he => hostWrite_busy he r v⟩
  · obtain ⟨reg, hc, rfl, hw⟩ := registerWrite_iff.mp ht
    rw [hostWrite_register he hc, hw, Option.getD_some]
  · rcases hr : Reg.ofNum r with _ | reg
    · exact hostWrite_reserved s v hr
    · obtain rfl := ofNum_eq_some.mp hr
      have hc : reg ≠ .cmd := fun hc => h0 (by rw [hc]; rfl)
      have hw : s.regWrite reg v = none :=
        Option.eq_none_iff_forall_ne_some.mpr fun t ht => hno t (registerWrite_iff.mpr ⟨reg, hc, rfl, ht⟩)
      rw [hostWrite_register he hc, hw]
      rfl
  · have hfit : fitBits 32 v = none := Option.eq_none_iff_forall_ne_some.mpr fun x hx =>
      absurd (hbig _ (fitBits_eq_some.mp hx)) (Nat.not_le.mpr x.isLt)
    rw [h0, hostWrite_cmd he, hfit]
    rfl

/-- Settles O9: a reserved number names no register. -/
theorem reservedRegistersRefused : Obligations.ReservedRegistersRefused := fun s _ v hr =>
  ⟨hostWrite_reserved s v (ofNum_of_reserved hr), hostRead_reserved s (ofNum_of_reserved hr)⟩

/-! ### HostRead and HostReadImg -/

/-- The content of a readable register, from the value its field holds. -/
def RegContent.ofOption : Option HostVal → RegContent
  | none => .unwritten
  | some v => .value v

theorem ofBits_eq {w : Nat} (r : Option (BitVec w)) :
    RegContent.ofBits r = RegContent.ofOption (r.map fun x => .num x.toNat) := by
  cases r <;> rfl

theorem ofBytes_eq (r : Option (List Byte)) : RegContent.ofBytes r = RegContent.ofOption (r.map fun b => .bytes b) := by
  cases r <;> rfl

theorem ofNat_eq (r : Option Nat) : RegContent.ofNat r = RegContent.ofOption (r.map fun n => .num n) := by
  cases r <;> rfl

/-- Every entry of the table `readable` is a register's number with that register's content. -/
theorem regContent_of_readable {s : State} {r : Nat} {o : Option HostVal} (h : (r, o) ∈ readable s) :
    ∃ reg : Reg, r = reg.num ∧ s.regContent reg = RegContent.ofOption o := by
  simp only [readable, List.mem_cons, List.not_mem_nil, or_false, Prod.mk.injEq] at h
  rcases h with ⟨rfl, rfl⟩ | ⟨rfl, rfl⟩ | ⟨rfl, rfl⟩ | ⟨rfl, rfl⟩ | ⟨rfl, rfl⟩ | ⟨rfl, rfl⟩ | ⟨rfl, rfl⟩ | ⟨rfl, rfl⟩ |
    ⟨rfl, rfl⟩ | ⟨rfl, rfl⟩ | ⟨rfl, rfl⟩ | ⟨rfl, rfl⟩ | ⟨rfl, rfl⟩ | ⟨rfl, rfl⟩ | ⟨rfl, rfl⟩ | ⟨rfl, rfl⟩ |
    ⟨rfl, rfl⟩ | ⟨rfl, rfl⟩ | ⟨rfl, rfl⟩ | ⟨rfl, rfl⟩ | ⟨rfl, rfl⟩
  · exact ⟨.status, rfl, ofBits_eq _⟩
  · exact ⟨.arg0, rfl, ofNat_eq _⟩
  · exact ⟨.ckHi, rfl, ofBits_eq _⟩
  · exact ⟨.ckLo, rfl, ofBits_eq _⟩
  · exact ⟨.imgLen, rfl, by rw [State.regContent, ofNat_eq, Option.map_map]; rfl⟩
  · exact ⟨.hbuf, rfl, by rw [State.regContent, ofBytes_eq, Option.map_map]; rfl⟩
  · exact ⟨.dbuf, rfl, ofBytes_eq _⟩
  · exact ⟨.rtxt, rfl, ofBytes_eq _⟩
  · exact ⟨.hCfgFlags, rfl, ofBits_eq _⟩
  · exact ⟨.hClockRate, rfl, ofBits_eq _⟩
  · exact ⟨.hBootAddress, rfl, ofBits_eq _⟩
  · exact ⟨.hLuVersion, rfl, ofBits_eq _⟩
  · exact ⟨.hCrcHi, rfl, ofBits_eq _⟩
  · exact ⟨.hCrcLo, rfl, ofBits_eq _⟩
  · exact ⟨.hReserved1, rfl, ofBits_eq _⟩
  · exact ⟨.hTitle, rfl, ofBytes_eq _⟩
  · exact ⟨.hReserved2, rfl, ofBits_eq _⟩
  · exact ⟨.hCategory, rfl, ofBits_eq _⟩
  · exact ⟨.hUnique, rfl, ofBits_eq _⟩
  · exact ⟨.hDestination, rfl, ofBits_eq _⟩
  · exact ⟨.hVersion, rfl, ofBits_eq _⟩

/-- Settles O8: by whether ENGINE is IDLE and what the register holds. -/
theorem hostReadReturnsRegister : Obligations.HostReadReturnsRegister := by
  intro s r
  refine ⟨fun he v hv => ?_, fun he hn => ?_, fun he hr => ?_, fun he => hostRead_busy he r⟩
  · obtain ⟨reg, rfl, hc⟩ := regContent_of_readable hv
    exact hostRead_value he hc
  · obtain ⟨reg, rfl, hc⟩ := regContent_of_readable hn
    exact hostRead_unwritten he hc
  · rcases hr with rfl | hr
    · exact hostRead_cmd s
    · exact hostRead_reserved s (ofNum_of_reserved hr)

/-- Settles O55: while ENGINE is IDLE the operation reads IMG first. -/
theorem hostReadImgUnwrittenFaults : Obligations.HostReadImgUnwrittenFaults := by
  intro s a n hm
  exact ⟨fun he => hostReadImg_unwritten he hm a n, fun he => hostReadImg_busy he a n⟩

/-! ### The step -/

theorem step_idle_cons {s : State} {op : HostOp} {ops : List HostOp} (he : s.eng = .idle) (ho : s.hostOps = op :: ops) :
    step s = hostStep op { s with hostOps := ops } := by
  unfold step
  rw [he]
  dsimp only
  rw [ho]

theorem step_idle_nil {s : State} (he : s.eng = .idle) (ho : s.hostOps = []) : step s = .next s := by
  unfold step
  rw [he]
  dsimp only
  rw [ho]

/-- Settles O54, by the kind of the operation. -/
theorem stepTakesHostOperation : Obligations.StepTakesHostOperation := fun _ _ he =>
  ⟨fun _ _ ho => step_idle_cons he ho, fun _ ho => step_idle_cons he ho, fun _ _ ho => step_idle_cons he ho,
    fun ho => step_idle_nil he ho⟩

/-- A write of a word to CMD that decodes issues the command (30_encoding.md R70). -/
theorem hostWrite_command {s : State} (he : s.eng = .idle) {w : Word} {i : Instr} (hd : decode w = .ok i) :
    hostWrite 0x00 (.num w.toNat) s = issue i s := by
  rw [hostWrite_cmd he, fitBits_toNat, Option.elim_some, commandWrite, hd]

theorem issue_of_transition {i : Instr} {s : State} (h : s.params.grain = .atomic ∨ runCmd i = none) :
    issue i s = exec i s := by
  unfold issue
  rcases h with hg | hn
  · rw [hg]
  · rw [hn]
    cases s.params.grain <;> rfl

theorem issue_of_run {i : Instr} {s : State} {c : RunCmd} (hg : s.params.grain = .wordSteps) (hc : runCmd i = some c) :
    issue i s = .next (startRun c s) := by
  unfold issue
  rw [hg, hc]

/-- Settles O5: the step is HOST's write to CMD, which issues the command. -/
theorem stepRunsDecodedCommand : Obligations.StepRunsDecodedCommand := by
  intro s ops w i he ho hd
  have hstep : step s = issue i { s with hostOps := ops } :=
    (step_idle_cons he ho).trans (hostWrite_command (s := { s with hostOps := ops }) he hd)
  exact ⟨fun h => hstep.trans (issue_of_transition h), fun c hg hc => hstep.trans (issue_of_run hg hc)⟩

/-- Settles O6: the placed operation is HOST's write of the word to CMD. -/
theorem placedWordRunsNext : Obligations.PlacedWordRunsNext := by
  intro s w i hg hd
  have hmod : w.toNat % 2 ^ 32 = w.toNat := Nat.mod_eq_of_lt w.isLt
  constructor
  · unfold decodeTableWord
    rw [hmod]
    simp [w.isLt, hd, Except.toOption]
  · have hplaced : (s.withFetchWord 32 w.toNat).hostOps = .write 0x00 (.num w.toNat) :: s.hostOps := by
      rw [State.withFetchWord, hmod]
    exact (stepRunsDecodedCommand _ _ w i rfl hplaced hd).1 (Or.inl hg)

end Sys2Proof.Machine
end

/-! ## LOAD, STORE, and commands that find an operand unwritten -/

section
namespace Sys2Proof.Machine

open Sys2Proof.Claims

/-! ### LOAD and STORE, by their draw -/

theorem exec_load (s : State) : exec .load s = .next (s.drawLoad.2.loadWith s.drawLoad.1) := rfl

theorem exec_store (s : State) : exec .store s = .next (s.drawStore.2.storeWith s.drawStore.1) := rfl

/-- LOAD of a source that P_IMG_MAX admits (43_image_buffer.md R103). -/
theorem exec_load_bytes {s : State} {src : List Byte} (hd : s.drawLoad.1 = .bytes src)
    (hp : pastImgMax s.params src.length = false) :
    exec .load s = .next (State.ok { s.drawLoad.2 with img := some (Memory.ofBytes src) }) := by
  rw [exec_load, hd]
  exact congrArg _ (if_neg (by simp [drawLoad_params, hp]))

theorem exec_load_past {s : State} {src : List Byte} (hd : s.drawLoad.1 = .bytes src)
    (hp : pastImgMax s.params src.length = true) : exec .load s = .next s.drawLoad.2.refuse := by
  rw [exec_load, hd]
  exact congrArg _ (if_pos (by simp [drawLoad_params, hp]))

theorem exec_load_fail {s : State} (hd : s.drawLoad.1 = .readFail) :
    exec .load s = .next (State.raise { s.drawLoad.2 with img := none } .readError) := by
  rw [exec_load, hd, State.loadWith]

/-- STORE after a draw that succeeds reads IMG (43_image_buffer.md R104). -/
theorem exec_store_ok {s : State} (hd : s.drawStore.1 = .ok) :
    exec .store s = .next (s.drawStore.2.need s.drawStore.2.img fun m =>
      State.ok { s.drawStore.2 with snk := m.bytes 0 m.len }) := by
  rw [exec_store, hd, State.storeWith]

theorem exec_store_unwritten {s : State} (hm : s.img = none) (hd : s.drawStore.1 = .ok) :
    exec .store s = .next (s.drawStore.2.fault .unwritten) := by
  rw [exec_store_ok hd, need_of_none ((drawStore_img s).trans hm)]

theorem exec_store_fail {s : State} {sunk : List Byte} (hd : s.drawStore.1 = .writeFail sunk) :
    exec .store s = .next (State.raise { s.drawStore.2 with snk := sunk } .writeError) := by
  rw [exec_store, hd, State.storeWith]

/-- `IMG[0..IMG_LEN)` is every byte of IMG. -/
theorem bytes_zero (m : Memory) (n : Nat) : m.bytes 0 n = (List.range n).map m.byte := by
  rw [bytes_eq, List.range_eq_range']

theorem drawLoad_marks (s : State) : s.drawLoad.2.faults = s.faults ∧ s.drawLoad.2.refused = s.refused := by
  rw [drawLoad_frame]
  exact ⟨rfl, rfl⟩

theorem drawStore_marks (s : State) : s.drawStore.2.faults = s.faults ∧ s.drawStore.2.refused = s.refused := by
  rw [drawStore_frame]
  exact ⟨rfl, rfl⟩

/-- With P_IMG_MAX unbounded no length is past it (20_memory.md R43). -/
theorem pastImgMax_unbounded {p : Config.Params} (h : p.imgMax = none) (len : Nat) : pastImgMax p len = false := by
  rw [pastImgMax, h]

/-- Settles O33, by the draw; the canonical image of a byte string holds its bytes. -/
theorem loadCommandCompletes : Obligations.LoadCommandCompletes := by
  intro s
  refine ⟨fun src hd hp => ?_, fun src hd hp => exec_load_past hd hp, fun hd => exec_load_fail hd, fun hu => ?_⟩
  · refine ⟨Memory.ofBytes src, exec_load_bytes hd hp, ofBytes_len src, ofBytes_wf src, fun k hk => ?_⟩
    rw [ofBytes_byte src k hk, List.getD_eq_getElem _ _ hk, List.getElem?_eq_getElem hk]
  · obtain ⟨hf, hr⟩ := drawLoad_marks s
    rcases hd : s.drawLoad.1 with src | _
    · exact ⟨_, exec_load_bytes hd (pastImgMax_unbounded hu _), Or.inl rfl, hf, hr⟩
    · exact ⟨_, exec_load_fail hd, Or.inr rfl, hf, hr⟩

/-- Settles O34, by the draw and then by whether IMG is written. -/
theorem storeCommandCompletes : Obligations.StoreCommandCompletes := by
  intro s
  have hok : ∀ m, s.img = some m → s.drawStore.1 = .ok →
      exec .store s = .next (State.ok { s.drawStore.2 with snk := (List.range m.len).map m.byte }) := by
    intro m hm hd
    rw [exec_store_ok hd, need_of_some ((drawStore_img s).trans hm), bytes_zero]
  refine ⟨hok, fun sunk hd => exec_store_fail hd, fun hm hd => exec_store_unwritten hm hd, fun m hm => ?_⟩
  obtain ⟨hf, hr⟩ := drawStore_marks s
  have hi : s.drawStore.2.img = some m := (drawStore_img s).trans hm
  rcases hd : s.drawStore.1 with _ | sunk
  · exact ⟨_, hok m hm hd, Or.inl rfl, hi, hf, hr⟩
  · exact ⟨_, exec_store_fail hd, Or.inr rfl, hi, hf, hr⟩

/-! ### Unwritten operands -/

/-- Reading an operand first makes no difference to a command that faults whatever the operand holds. -/
theorem need_fault {α : Type} (s : State) (r : Option α) {k : α → State} (h : ∀ a, k a = s.fault .unwritten) :
    s.need r k = s.fault .unwritten := by
  rcases need_cases s r k with ⟨_, hk⟩ | ⟨a, _, hk⟩
  · exact hk
  · rw [hk, h a]

/-- A command that reads IMG faults while IMG is unwritten; PAD_TO, PAD_BY and INJECT_AT read ARG0 and DBUF before it. -/
theorem exec_img_unwritten {s : State} (hm : s.img = none) {i : Instr} (hi : ReadsImage i) :
    exec i s = .next (s.fault .unwritten) := by
  cases i with
  | hencode | hrender | load | store => exact hi.elim
  | padTo | padBy => exact congrArg _ (need_fault s _ fun _ => need_of_none hm)
  | injectAt => exact congrArg _ (need_fault s _ fun _ => need_fault s _ fun _ => need_of_none hm)
  | _ => exact congrArg _ (need_of_none hm)

theorem exec_hreg_unwritten {s : State} (hh : s.hreg.full = none) :
    exec .hencode s = .next (s.fault .unwritten) ∧ exec .hrender s = .next (s.fault .unwritten) :=
  ⟨congrArg _ (need_of_none hh), congrArg _ (need_of_none hh)⟩

theorem exec_hoverwrite_unwritten {s : State} {m : Memory} (hm : s.img = some m) (hb : s.hbuf = none)
    (hl : 64 ≤ m.len) : exec .hoverwrite s = .next (s.fault .unwritten) := by
  have hlong : ¬ m.len < hdrLen := Nat.not_lt.mpr hl
  simp only [exec, execHoverwrite, hm, hb, need_some, need_none, if_neg hlong]

theorem exec_hprepend_unwritten {s : State} {m : Memory} (hm : s.img = some m) (hb : s.hbuf = none)
    (hp : pastImgMax s.params (m.len + 64) = false) : exec .hprepend s = .next (s.fault .unwritten) := by
  simp [exec, execHprepend, hm, hb, hdrLen, hp]

theorem exec_arg0_unwritten {s : State} (ha : s.arg0 = none) (fill : Byte) :
    exec (.padTo fill) s = .next (s.fault .unwritten) ∧ exec (.padBy fill) s = .next (s.fault .unwritten) ∧
    exec .injectAt s = .next (s.fault .unwritten) :=
  ⟨congrArg _ (need_of_none ha), congrArg _ (need_of_none ha), congrArg _ (need_of_none ha)⟩

theorem exec_dbuf_unwritten {s : State} (hd : s.dbuf = none) : exec .injectAt s = .next (s.fault .unwritten) :=
  congrArg _ (need_fault s _ fun _ => need_of_none hd)

/-- Settles O47, by the element that is unwritten. -/
theorem unwrittenOperandsFault : Obligations.UnwrittenOperandsFault := fun _ =>
  ⟨fun hm _ hi => exec_img_unwritten hm hi, exec_store_unwritten, exec_hreg_unwritten,
    fun hb _ hm => ⟨exec_hoverwrite_unwritten hm hb, exec_hprepend_unwritten hm hb⟩, exec_arg0_unwritten,
    exec_dbuf_unwritten⟩

end Sys2Proof.Machine
end

/-! ## Commands that complete: the code they write, and the old STATUS -/

section
namespace Sys2Proof.Machine

/-- A command that completes writes a code of 60_exceptions.md R111 other than that of SliceBoundsError. -/
theorem Result.status_code {i : Instr} {s t : State} (h : Result s i t) (hc : t.Clean) :
    ∃ code, t.status = some code ∧ code.toNat ≤ 6 ∧ code.toNat ≠ 4 := by
  cases h with
  | fault => exact absurd hc (not_clean_fault _ _)
  | storeUnwritten => exact absurd hc (not_clean_fault _ _)
  | refuse => exact absurd hc (not_clean_refuse _)
  | loadPast => exact absurd hc (not_clean_refuse _)
  | short => exact ⟨_, rfl, errCode_reachable .insufficientData (by decide)⟩
  | truncated => exact ⟨_, rfl, errCode_reachable .truncatedHeader (by decide)⟩
  | badTitle => exact ⟨_, rfl, errCode_reachable .invalidTitleEncoding (by decide)⟩
  | loadFail => exact ⟨_, rfl, errCode_reachable .readError (by decide)⟩
  | storeFail => exact ⟨_, rfl, errCode_reachable .writeError (by decide)⟩
  | _ => exact ⟨statusOk, rfl, by decide⟩

/-! ### The old STATUS

A command and the same command from another STATUS take the same branches, and each branch that completes overwrites
STATUS, so the two answers differ only where a mark is set. -/

/-- The two answers are one wherever the first is clean. -/
def SameIfClean (t t' : State) : Prop := t.Clean → t' = t

theorem sameIfClean_rfl (t : State) : SameIfClean t t := fun _ => rfl

theorem sameIfClean_fault (s : State) (f : Fault) (t' : State) : SameIfClean (s.fault f) t' := fun h =>
  absurd h (not_clean_fault s f)

theorem sameIfClean_refuse (s t' : State) : SameIfClean s.refuse t' := fun h => absurd h (not_clean_refuse s)

theorem sameIfClean_ite (c : Prop) [Decidable c] {t u t' u' : State} (ht : SameIfClean t t') (hu : SameIfClean u u') :
    SameIfClean (if c then t else u) (if c then t' else u') := by
  by_cases hc : c
  · rwa [if_pos hc, if_pos hc]
  · rwa [if_neg hc, if_neg hc]

theorem sameIfClean_need {α : Type} (s s' : State) (r : Option α) {k k' : α → State}
    (h : ∀ a, SameIfClean (k a) (k' a)) : SameIfClean (s.need r k) (s'.need r k') := by
  cases r with
  | none => exact sameIfClean_fault s _ _
  | some a => exact h a

/-- Two states that differ in STATUS run ChecksumFn to the same pair or the same error. -/
theorem sameIfClean_withPair (s : State) (old : Option Byte) {k k' : Word × Word → State}
    (h : ∀ pair, SameIfClean (k pair) (k' pair)) :
    SameIfClean (s.withPair k) (({ s with status := old } : State).withPair k') := by
  refine sameIfClean_need s _ s.img fun m => ?_
  dsimp only
  split
  · exact sameIfClean_rfl _
  · exact h _

theorem drawLoad_withStatus (s : State) (old : Option Byte) :
    ({ s with status := old } : State).drawLoad = (s.drawLoad.1, { s.drawLoad.2 with status := old }) := by
  unfold State.drawLoad
  dsimp only
  split <;> rfl

theorem drawStore_withStatus (s : State) (old : Option Byte) :
    ({ s with status := old } : State).drawStore = (s.drawStore.1, { s.drawStore.2 with status := old }) := by
  unfold State.drawStore
  dsimp only
  split <;> rfl

theorem sameIfClean_loadWith (s : State) (old : Option Byte) (d : LoadDraw) :
    SameIfClean (s.loadWith d) (({ s with status := old } : State).loadWith d) := by
  cases d with
  | bytes src => exact sameIfClean_ite _ (sameIfClean_refuse s _) (sameIfClean_rfl _)
  | readFail => exact sameIfClean_rfl _

theorem sameIfClean_storeWith (s : State) (old : Option Byte) (d : StoreDraw) :
    SameIfClean (s.storeWith d) (({ s with status := old } : State).storeWith d) := by
  cases d with
  | ok => exact sameIfClean_need s _ s.img fun _ => sameIfClean_rfl _
  | writeFail sunk => exact sameIfClean_rfl _

/-- The old STATUS has no part in what a command does (10_state.md R24). -/
theorem exec_withStatus (i : Instr) (s : State) (old : Option Byte) :
    ∃ t t', exec i s = .next t ∧ exec i { s with status := old } = .next t' ∧ SameIfClean t t' := by
  cases i <;> refine ⟨_, _, rfl, rfl, ?_⟩
  case checksum => exact sameIfClean_withPair s old fun _ => sameIfClean_rfl _
  case hrecomp => exact sameIfClean_withPair s old fun _ => sameIfClean_rfl _
  case hdefault => exact sameIfClean_withPair s old fun _ => sameIfClean_rfl _
  case hdecode =>
    exact sameIfClean_need s _ s.img fun m =>
      sameIfClean_ite _ (sameIfClean_rfl _) (sameIfClean_ite _ (sameIfClean_rfl _) (sameIfClean_rfl _))
  case hencode =>
    refine sameIfClean_need s _ s.hreg.full fun h => ?_
    dsimp only
    split
    · exact sameIfClean_fault s _ _
    · exact sameIfClean_rfl _
  case hrender => exact sameIfClean_need s _ s.hreg.full fun _ => sameIfClean_rfl _
  case load =>
    rw [drawLoad_withStatus s old]
    exact sameIfClean_loadWith _ old _
  case store =>
    rw [drawStore_withStatus s old]
    exact sameIfClean_storeWith _ old _
  case hoverwrite =>
    exact sameIfClean_need s _ s.img fun _ =>
      sameIfClean_ite _ (sameIfClean_fault s _ _) (sameIfClean_need s _ s.hbuf fun _ => sameIfClean_rfl _)
  case hprepend =>
    exact sameIfClean_need s _ s.img fun _ =>
      sameIfClean_ite _ (sameIfClean_refuse s _) (sameIfClean_need s _ s.hbuf fun _ => sameIfClean_rfl _)
  case padTo fill =>
    exact sameIfClean_need s _ s.arg0 fun _ => sameIfClean_need s _ s.img fun _ =>
      sameIfClean_ite _ (sameIfClean_ite _ (sameIfClean_refuse s _) (sameIfClean_rfl _)) (sameIfClean_rfl _)
  case padBy fill =>
    exact sameIfClean_need s _ s.arg0 fun _ => sameIfClean_need s _ s.img fun _ =>
      sameIfClean_ite _ (sameIfClean_refuse s _) (sameIfClean_rfl _)
  case injectAt =>
    exact sameIfClean_need s _ s.arg0 fun _ => sameIfClean_need s _ s.dbuf fun _ => sameIfClean_need s _ s.img fun _ =>
      sameIfClean_ite _ (sameIfClean_ite _ (sameIfClean_refuse s _) (sameIfClean_rfl _)) (sameIfClean_rfl _)

/-- Settles O44: the code by cases on what the command did, and the same answer from every old STATUS. -/
theorem completionWritesStatus : Obligations.CompletionWritesStatus := by
  intro i s t h hc
  refine ⟨(result_of_exec h).status_code hc, fun old => ?_⟩
  obtain ⟨u, u', hu, hu', hsame⟩ := exec_withStatus i s old
  obtain rfl : u = t := Host.Outcome.next.inj (hu.symm.trans h)
  rw [hu', hsame hc]

end Sys2Proof.Machine
end

/-! ## The text HRENDER writes -/

section
namespace Sys2Proof.Machine

open Sys2Proof.Claims Sys2Proof.Config

/-! ### A line shows its fields -/

theorem digitValue_hexDigit (upper : Bool) {d : Nat} (hd : d < 16) : digitValue (hexDigit upper d) = some d := by
  interval_cases d <;> cases upper <;> rfl

/-- The values of the lowest `n` hexadecimal digits of a number, most significant first. -/
def hexValues : Nat → Nat → List Nat
  | 0, _ => []
  | n + 1, v => hexValues n (v / 16) ++ [v % 16]

theorem digitValue_hexDigits (upper : Bool) (n v : Nat) :
    (hexDigits upper n v).map digitValue = (hexValues n v).map some := by
  induction n generalizing v with
  | zero => rfl
  | succ n ih =>
    simp [hexDigits, hexValues, ih, digitValue_hexDigit upper (Nat.mod_lt v (by decide : 0 < 16))]

theorem foldl_hexValues (n v : Nat) : (hexValues n v).foldl (fun k d => k * 16 + d) 0 = v % 16 ^ n := by
  induction n generalizing v with
  | zero => simp [hexValues, Nat.mod_one]
  | succ n ih =>
    rw [hexValues, List.foldl_append, ih, pow_succ', Nat.mod_mul, List.foldl_cons, List.foldl_nil]
    omega

/-- Enough digits spell the number. -/
theorem hexNumeral_hexDigits (upper : Bool) {n v : Nat} (hn : n ≠ 0) (hv : v < 16 ^ n) :
    HexNumeral (hexDigits upper n v) v := by
  refine ⟨hexValues n v, ?_, digitValue_hexDigits upper n v, ?_⟩
  · obtain ⟨k, rfl⟩ := Nat.exists_eq_succ_of_ne_zero hn
    simp [hexValues]
  · rw [foldl_hexValues, Nat.mod_eq_of_lt hv]

theorem lt_sixteen_pow (v : Nat) : v < 16 ^ (Nat.log2 v / 4 + 1) := by
  have hle : v.log2 + 1 ≤ 4 * (v.log2 / 4 + 1) := by omega
  calc v < 2 ^ (v.log2 + 1) := Nat.lt_log2_self
    _ ≤ 2 ^ (4 * (v.log2 / 4 + 1)) := Nat.pow_le_pow_right (by decide) hle
    _ = 16 ^ (v.log2 / 4 + 1) := by rw [pow_mul]; norm_num

/-- A number in hexadecimal is shown by its text, whatever the style's mark, case and width. -/
theorem showsHex_hexText (fs : FieldStyle) (v : Nat) : ShowsHex (hexText fs v) v := by
  have hw : v < 16 ^ max fs.width (Nat.log2 v / 4 + 1) :=
    (lt_sixteen_pow v).trans_le (Nat.pow_le_pow_right (by decide) (le_max_right _ _))
  exact ⟨_, hexNumeral_hexDigits fs.upper (by omega) hw, (List.suffix_append _ _).isInfix⟩

theorem showsCode_codeText (c : Byte) (other : List Byte) : ShowsCode (codeText c other) c := by
  intro hlo hhi
  have hp : isPrintable c = true := by simp [isPrintable]; omega
  rw [codeText, if_pos hp]
  exact List.mem_singleton.mpr rfl

theorem showsHex_of_infix {line line' : List Byte} {v : Nat} (h : ShowsHex line v) (hl : line <:+: line') :
    ShowsHex line' v := by
  obtain ⟨ds, hds, hi⟩ := h
  exact ⟨ds, hds, hi.trans hl⟩

theorem showsCode_of_infix {line line' : List Byte} {c : Byte} (h : ShowsCode line c) (hl : line <:+: line') :
    ShowsCode line' c :=
  fun hlo hhi => hl.subset (h hlo hhi)

/-- What a part of a line shows, the line shows. -/
theorem shows_of_infix {h : Header} {line line' : List Byte} {f : Field} (hs : Shows h line f) (hl : line <:+: line') :
    Shows h line' f := by
  cases f with
  | title | reserved2 => trivial
  | category | destination => exact showsCode_of_infix hs hl
  | unique =>
    obtain ⟨hfirst, hsecond⟩ := hs
    exact ⟨showsCode_of_infix hfirst hl, showsCode_of_infix hsecond hl⟩
  | _ => exact showsHex_of_infix hs hl

theorem shows_valueText (fs : FieldStyle) (h : Header) (f : Field) : Shows h (valueText fs h f) f := by
  cases f with
  | title | reserved2 => trivial
  | category | destination => exact showsCode_codeText _ _
  | unique =>
    refine ⟨showsCode_of_infix (showsCode_codeText _ fs.shown) ?_,
      showsCode_of_infix (showsCode_codeText _ fs.second) ?_⟩
    · rw [valueText, List.append_assoc]
      exact (List.prefix_append _ _).isInfix
    · exact (List.suffix_append _ _).isInfix
  | _ => exact showsHex_hexText fs _

/-- A line shows each of its fields (42_header_codec.md R101). -/
theorem shows_lineText (st : RenderStyle) (h : Header) {line : List Field} {f : Field} (hf : f ∈ line) :
    Shows h (lineText st h line) f := by
  have hvalue : valueText (st.field f) h f <:+: fieldText st h f := List.infix_append _ _ _
  have hfield : fieldText st h f <:+: lineText st h line :=
    List.infix_of_mem_flatten (List.mem_map_of_mem hf)
  exact shows_of_infix (shows_valueText _ h f) (hvalue.trans hfield)

/-! ### A style that R101 admits -/

/-- A text in an admitted style has the form of R101: its lines are the style's. -/
theorem renderedAs_styledText {st : RenderStyle} {h : Header} (ha : admits st h = true) :
    RenderedAs h (styledText st h) := by
  simp only [admits, Bool.and_eq_true, List.all_eq_true, Bool.not_eq_true', List.isEmpty_eq_false_iff] at ha
  obtain ⟨⟨⟨hperm, hone⟩, hne⟩, hfree⟩ := ha
  refine ⟨st.order.map fun line => (line, lineText st h line), st.ending, if st.endLast then st.ending else [],
    ?_, ?_, hne, ?_, ?_, ?_⟩
  · simpa [List.flatMap, Function.comp_def, allFields] using List.isPerm_iff.mp hperm
  · simp only [List.forall_mem_map]
    intro line hline
    simpa [oneField, List.isPerm_iff] using hone line hline
  · split
    · exact Or.inl rfl
    · exact Or.inr rfl
  · simp [styledText, joinLines, Function.comp_def]
  · simp only [List.forall_mem_map]
    intro line hline
    refine ⟨fun hin => ?_, fun f hf => shows_lineText st h hf⟩
    have hocc : occursIn st.ending (lineText st h line ++ st.ending.dropLast) = true :=
      (occursIn_iff _ _).mpr (hin.trans (List.prefix_append _ _).isInfix)
    rw [hfree line hline] at hocc
    cases hocc

/-- Settles O57: HRENDER writes the header's text in some style that R101 admits. -/
theorem hrenderTextKeepsItsForm : Obligations.HrenderTextKeepsItsForm := by
  intro s h hh
  obtain ⟨st, ha, htext⟩ := renderText_cases h
  refine ⟨renderText h, congrArg _ (need_of_some hh), ?_⟩
  rw [htext]
  exact renderedAs_styledText ha

end Sys2Proof.Machine
end

/-! ## HostReadImg of a written image, and HDECODE -/

section
namespace Sys2Proof.Machine

open Sys2Proof.Claims

/-! ### HostReadImg (20_memory.md R45) -/

section
variable {s : State} {m : Memory} {a n : Nat}

theorem hostReadImg_inside (he : s.eng = .idle) (hm : s.img = some m) (hl : a + n ≤ m.len) :
    hostReadImg a n s = s.reply (.bytes (m.bytes a n)) := by
  have hi : s.engIdle = true := (engIdle_iff s).mpr he
  simp only [hostReadImg, hi, if_true, hm, need_some, Memory.read, if_pos hl]

theorem hostReadImg_outside (he : s.eng = .idle) (hm : s.img = some m) (hl : m.len < a + n) :
    hostReadImg a n s = s.refuse := by
  have hi : s.engIdle = true := (engIdle_iff s).mpr he
  simp only [hostReadImg, hi, if_true, hm, need_some, Memory.read, if_neg (Nat.not_le.mpr hl)]

end

/-- A write of a number other than CMD's is refused, or sets a register (10_state.md R21). -/
theorem hostWrite_not_cmd {s t : State} {r : Nat} {v : HostVal} (hr : r ≠ 0x00) (h : hostWrite r v s = .next t) :
    t = s.refuse ∨ ∃ reg, s.regWrite reg v = some t := by
  by_cases he : s.eng = .idle
  case neg =>
    rw [hostWrite_busy he] at h
    exact Or.inl (Host.Outcome.next.inj h).symm
  rcases hn : Reg.ofNum r with _ | reg
  · rw [hostWrite_reserved s v hn] at h
    exact Or.inl (Host.Outcome.next.inj h).symm
  · obtain rfl := ofNum_eq_some.mp hn
    have hc : reg ≠ .cmd := fun hc => hr (by rw [hc]; rfl)
    rw [hostWrite_register he hc] at h
    rcases hw : s.regWrite reg v with _ | u <;> rw [hw] at h
    · exact Or.inl (Host.Outcome.next.inj h).symm
    · exact Or.inr ⟨reg, hw.trans (congrArg some (Host.Outcome.next.inj h))⟩

/-- Settles O10: the read by whether it lies in IMG and ENGINE is IDLE; a register write leaves IMG alone. -/
theorem hostReadImgReturnsBytes : Obligations.HostReadImgReturnsBytes := by
  constructor
  · intro s m a n hm
    exact ⟨fun he hl => ⟨m.bytes a n, hostReadImg_inside he hm hl, bytes_length m a n, bytes_getElem? m a n⟩,
      fun he hl => hostReadImg_outside he hm hl, fun he => hostReadImg_busy he a n⟩
  · intro s t r v hr h
    rcases hostWrite_not_cmd hr h with rfl | ⟨reg, hw⟩
    · exact refuse_img s
    · rw [regWrite_frame hw]

/-! ### The encoded header of an image (42_header_codec.md R90) -/

/-- A slice of the first bytes of IMG is IMG's bytes from the slice's offset on. -/
theorem slice_bytes_zero (m : Memory) {off n len : Nat} (h : off + n ≤ len) :
    slice (m.bytes 0 len) off n = (List.range n).map fun k => m.byte (off + k) := by
  refine List.ext_getElem? fun k => ?_
  rw [slice, List.getElem?_take]
  split
  case isTrue hk =>
    rw [List.getElem?_drop, bytes_getElem? m 0 len (off + k) (by omega), Nat.zero_add]
    simp [hk]
  case isFalse hk => simp [Nat.not_lt.mp hk]

/-- A header field of IMG is the big-endian number at its offset. -/
theorem fieldAt_bytes_zero (m : Memory) {off n len : Nat} (w : Nat) (h : off + n ≤ len) :
    fieldAt (m.bytes 0 len) off n w = BitVec.ofNat w (beAt m off n) := by
  rw [fieldAt, slice_bytes_zero m h, beAt]

theorem beAt_one (m : Memory) (a : Nat) : beAt m a 1 = (m.byte a).toNat := by
  simp [beAt, be]

theorem beAt_two (m : Memory) (a : Nat) : beAt m a 2 = (m.byte a).toNat * 256 + (m.byte (a + 1)).toNat := by
  simp [beAt, be, List.range_succ]

/-- The thirteen fields that the first 64 bytes of IMG encode. -/
theorem decodeHeader_bytes (m : Memory) : decodeHeader (m.bytes 0 hdrLen) =
    { cfgFlags := BitVec.ofNat 32 (beAt m 0x00 4)
      clockRate := BitVec.ofNat 32 (beAt m 0x04 4)
      bootAddress := BitVec.ofNat 32 (beAt m 0x08 4)
      luVersion := BitVec.ofNat 32 (beAt m 0x0C 4)
      crcHi := BitVec.ofNat 32 (beAt m 0x10 4)
      crcLo := BitVec.ofNat 32 (beAt m 0x14 4)
      reserved1 := BitVec.ofNat 64 (beAt m 0x18 8)
      title := (List.range 20).map fun k => m.byte (0x20 + k)
      reserved2 := BitVec.ofNat 56 (beAt m 0x34 7)
      category := m.byte 0x3B
      unique := BitVec.ofNat 16 ((m.byte 0x3C).toNat * 256 + (m.byte 0x3D).toNat)
      destination := m.byte 0x3E
      version := m.byte 0x3F } := by
  simp (disch := decide) only [decodeHeader, hdrLen, titleLen, fieldAt_bytes_zero, slice_bytes_zero, beAt_one, beAt_two,
    BitVec.ofNat_toNat, BitVec.setWidth_eq, Nat.reduceAdd]

/-! ### HDECODE, by the length and the title (42_header_codec.md R94, R96) -/

section
variable {s : State} {m : Memory}

theorem exec_hdecode_short (hm : s.img = some m) (hl : m.len < 64) :
    exec .hdecode s = .next (s.raise .truncatedHeader) := by
  have hshort : m.len < hdrLen := hl
  simp only [exec, execHdecode, hm, need_some, if_pos hshort]

theorem exec_hdecode_long (hm : s.img = some m) (hl : 64 ≤ m.len) :
    exec .hdecode s = .next
      (if titleOk s.params (decodeHeader (m.bytes 0 hdrLen)).title then
        State.ok { s with hreg := HReg.ofHeader (decodeHeader (m.bytes 0 hdrLen)) }
      else s.raise .invalidTitleEncoding) := by
  have hlong : ¬ m.len < hdrLen := Nat.not_lt.mpr hl
  simp only [exec, execHdecode, hm, need_some, if_neg hlong]

end

/-- Settles O23, by the length of IMG and then the title's validity. -/
theorem hdecodeCommandCompletes : Obligations.HdecodeCommandCompletes := by
  intro s m hm
  refine ⟨fun hl => exec_hdecode_short hm hl, fun hl ht => ?_, fun hl ht => ?_⟩
  · rw [exec_hdecode_long hm hl, decodeHeader_bytes, ht]
    rfl
  · rw [exec_hdecode_long hm hl, decodeHeader_bytes, ht]
    rfl

end Sys2Proof.Machine
end

/-! ## The commands that store into IMG: one equation per command and case -/

section
namespace Sys2Proof.Machine

theorem getD_eq_getElem? {s : List Byte} {k : Nat} (hk : k < s.length) (d : Byte) : some (s.getD k d) = s[k]? := by
  rw [List.getD_eq_getElem _ _ hk, List.getElem?_eq_getElem hk]

/-- The bytes stored at `a` are those of the string. -/
theorem write_byte_stored (m : Memory) (a : Nat) (s : List Byte) {k : Nat} (hk : k < s.length) :
    some ((m.write a s).byte (a + k)) = s[k]? := by
  rw [write_byte_in m a s (a + k) (by omega) (by omega), Nat.add_sub_cancel_left, getD_eq_getElem? hk]

/-- The bytes put in front are those of the string. -/
theorem prepend_byte_front (m : Memory) (s : List Byte) {k : Nat} (hk : k < s.length) :
    some ((m.prepend s).byte k) = s[k]? := by
  rw [prepend_byte_new m s k hk, getD_eq_getElem? hk]

theorem growTo_of_le {m : Memory} {target : Nat} (h : target ≤ m.len) (fill : Byte) : m.growTo target fill = m := by
  simp [Memory.growTo, Memory.append, Nat.sub_eq_zero_of_le h]

/-- Images of one length that agree on the window have the same checksum pair (41_checksum_engine.md R87). -/
theorem checksumFn_congr (tie : Config.AuxTie) {m m' : Memory} (hl : m.len = m'.len)
    (h : ∀ a, 0x1000 ≤ a → a < 0x101000 → m.byte a = m'.byte a) : checksumFn tie m = checksumFn tie m' := by
  rw [checksumFn, checksumFn, hl, windowLoop_congr tie ckWords m m' ckStart Acc.seed h]

/-! ### HOVERWRITE (43_image_buffer.md R105) -/

theorem exec_hoverwrite_long {s : State} {m : Memory} {b : Vector Byte 64} (hm : s.img = some m) (hb : s.hbuf = some b)
    (hl : 64 ≤ m.len) : exec .hoverwrite s = .next (State.ok { s with img := some (m.write 0 b.toList) }) := by
  have hlong : ¬ m.len < hdrLen := Nat.not_lt.mpr hl
  simp only [exec, execHoverwrite, hm, hb, need_some, if_neg hlong]

theorem exec_hoverwrite_short {s : State} {m : Memory} (hm : s.img = some m) (hl : m.len < 64) :
    exec .hoverwrite s = .next (s.fault .shortOverwrite) := by
  have hshort : m.len < hdrLen := hl
  simp only [exec, execHoverwrite, hm, need_some, if_pos hshort]

/-- Settles O35: the store at address 0 ends below the checksum window. -/
theorem hoverwriteCommandCompletes : Obligations.HoverwriteCommandCompletes := by
  intro s m hm
  refine ⟨fun b hb hl hw => ?_, fun hl => exec_hoverwrite_short hm hl⟩
  have hlen : b.toList.length = 64 := b.length_toList
  have hkept : ∀ a, 64 ≤ a → (m.write 0 b.toList).byte a = m.byte a := fun a ha =>
    write_byte_out m 0 b.toList a hw (Or.inr (by omega))
  refine ⟨m.write 0 b.toList, exec_hoverwrite_long hm hb hl, rfl, write_wf m 0 _ hw (by omega), fun a ha => ?_, hkept,
    fun tie => checksumFn_congr tie rfl fun a ha _ => hkept a (by omega)⟩
  simpa using write_byte_stored m 0 b.toList (k := a) (by omega)

/-! ### HPREPEND (43_image_buffer.md R106) -/

theorem exec_hprepend_room {s : State} {m : Memory} {b : Vector Byte 64} (hm : s.img = some m) (hb : s.hbuf = some b)
    (hp : pastImgMax s.params (m.len + 64) = false) :
    exec .hprepend s = .next (State.ok { s with img := some (m.prepend b.toList) }) := by
  simp [exec, execHprepend, hm, hb, hdrLen, hp]

theorem exec_hprepend_past {s : State} {m : Memory} (hm : s.img = some m)
    (hp : pastImgMax s.params (m.len + 64) = true) : exec .hprepend s = .next s.refuse := by
  simp [exec, execHprepend, hm, hdrLen, hp]

/-- Settles O36: HBUF's 64 bytes stand in front. -/
theorem hprependCommandCompletes : Obligations.HprependCommandCompletes := by
  intro s m hm
  refine ⟨fun b hb hp hw => ?_, fun hp => exec_hprepend_past hm hp⟩
  have hlen : b.toList.length = 64 := b.length_toList
  have hmoved : ∀ a, (m.prepend b.toList).byte (a + 64) = m.byte a := fun a => by
    simpa only [hlen] using prepend_byte_old m b.toList a
  refine ⟨m.prepend b.toList, exec_hprepend_room hm hb hp, ?_, prepend_wf m _ hw,
    fun a ha => prepend_byte_front m b.toList (by rwa [hlen]), hmoved⟩
  rw [prepend_len, hlen, Nat.add_comm]

/-! ### PAD_TO (43_image_buffer.md R107) -/

section
variable {s : State} {m : Memory} {fill : Byte} {target : Nat}

theorem exec_padTo_grow (hm : s.img = some m) (ha : s.arg0 = some target) (hl : m.len < target)
    (hp : pastImgMax s.params target = false) :
    exec (.padTo fill) s = .next (State.ok { s with img := some (m.growTo target fill) }) := by
  simp [exec, execPadTo, hm, ha, hl, hp]

theorem exec_padTo_past (hm : s.img = some m) (ha : s.arg0 = some target) (hl : m.len < target)
    (hp : pastImgMax s.params target = true) : exec (.padTo fill) s = .next s.refuse := by
  simp [exec, execPadTo, hm, ha, hl, hp]

theorem exec_padTo_long (hm : s.img = some m) (ha : s.arg0 = some target) (hl : target ≤ m.len) :
    exec (.padTo fill) s = .next s.ok := by
  simp [exec, execPadTo, hm, ha, Nat.not_lt.mpr hl]

end

/-- Settles O37, by whether IMG is shorter than the target and whether P_IMG_MAX admits the growth. -/
theorem padToCommandCompletes : Obligations.PadToCommandCompletes := by
  intro s m fill target hm ha
  refine ⟨fun hl hp hw => ?_, fun hl hp => exec_padTo_past hm ha hl hp, fun hl => exec_padTo_long hm ha hl⟩
  refine ⟨m.growTo target fill, exec_padTo_grow hm ha hl hp, ?_, growTo_wf m target fill hw,
    growTo_byte_old m target fill, fun a => growTo_byte_new m target fill a hw⟩
  rw [growTo_len, max_eq_right hl.le]

/-! ### PAD_BY (43_image_buffer.md R108) -/

section
variable {s : State} {m : Memory} {fill : Byte} {count : Nat}

/-- PAD_BY grows IMG as PAD_TO does for the target `IMG_LEN + ARG0`. -/
theorem exec_padBy_room (hm : s.img = some m) (ha : s.arg0 = some count)
    (hp : pastImgMax s.params (m.len + count) = false) :
    exec (.padBy fill) s = .next (State.ok { s with img := some (m.growTo (m.len + count) fill) }) := by
  simp [exec, execPadBy, hm, ha, hp, Memory.growTo]

theorem exec_padBy_past (hm : s.img = some m) (ha : s.arg0 = some count)
    (hp : pastImgMax s.params (m.len + count) = true) : exec (.padBy fill) s = .next s.refuse := by
  simp [exec, execPadBy, hm, ha, hp]

end

/-- Settles O38: IMG grows to the length `IMG_LEN + ARG0`. -/
theorem padByCommandCompletes : Obligations.PadByCommandCompletes := by
  intro s m fill count hm ha
  refine ⟨fun hp hw => ?_, fun hp => exec_padBy_past hm ha hp⟩
  refine ⟨m.growTo (m.len + count) fill, exec_padBy_room hm ha hp, ?_, growTo_wf m _ fill hw,
    growTo_byte_old m _ fill, fun a => growTo_byte_new m _ fill a hw⟩
  rw [growTo_len, max_eq_right (Nat.le_add_right _ _)]

/-! ### INJECT_AT (43_image_buffer.md R109) -/

/-- IMG after INJECT_AT: grown to the end of the data with the fill byte, where it is shorter, and then stored into. -/
def Memory.inject (m : Memory) (fill : Byte) (offset : Nat) (data : List Byte) : Memory :=
  (m.growTo (offset + data.length) fill).write offset data

section
variable {s : State} {m : Memory} {offset : Nat} {data : List Byte}

theorem exec_injectAt_room (hm : s.img = some m) (ha : s.arg0 = some offset) (hd : s.dbuf = some data)
    (hp : offset + data.length ≤ m.len ∨ pastImgMax s.params (offset + data.length) = false) :
    exec .injectAt s = .next (State.ok { s with img := some (m.inject s.params.injectFill offset data) }) := by
  rcases le_or_gt (offset + data.length) m.len with hl | hl
  · simp [exec, execInjectAt, hm, ha, hd, Nat.not_lt.mpr hl, Memory.inject, growTo_of_le hl]
  · simp [exec, execInjectAt, hm, ha, hd, hl, Memory.inject, hp.resolve_left (Nat.not_le.mpr hl)]

theorem exec_injectAt_past (hm : s.img = some m) (ha : s.arg0 = some offset) (hd : s.dbuf = some data)
    (hl : m.len < offset + data.length) (hp : pastImgMax s.params (offset + data.length) = true) :
    exec .injectAt s = .next s.refuse := by
  simp [exec, execInjectAt, hm, ha, hd, hl, hp]

variable (m) (fill : Byte) (offset) (data)

theorem inject_len : (m.inject fill offset data).len = max m.len (offset + data.length) := growTo_len m _ fill

theorem inject_wf (hw : m.wf) : (m.inject fill offset data).wf :=
  write_wf _ offset data (growTo_wf m _ fill hw) (by rw [growTo_len]; exact le_max_right _ _)

/-- Outside the bytes stored, INJECT_AT leaves what the growth left. -/
theorem inject_byte_out (hw : m.wf) {a : Nat} (ha : a < offset ∨ offset + data.length ≤ a) :
    (m.inject fill offset data).byte a = (m.growTo (offset + data.length) fill).byte a :=
  write_byte_out _ offset data a (growTo_wf m _ fill hw) ha

end

/-- Settles O39: the bytes stored, and outside them the old bytes and then the gap. -/
theorem injectAtCommandCompletes : Obligations.InjectAtCommandCompletes := by
  intro s m offset data hm ha hd
  refine ⟨fun hp hw => ?_, fun hl hp => exec_injectAt_past hm ha hd hl hp⟩
  refine ⟨_, exec_injectAt_room hm ha hd hp, inject_len _ _ _ _, inject_wf _ _ _ _ hw,
    fun k hk => write_byte_stored _ offset data hk, fun a hold hout => ?_, fun a hnew hgap => ?_⟩
  · rw [inject_byte_out _ _ _ _ hw hout, growTo_byte_old m _ _ a hold]
  · rw [inject_byte_out _ _ _ _ hw (Or.inl hgap), growTo_byte_new m _ _ a hw hnew (by omega)]

end Sys2Proof.Machine
end

/-! ## The canonical form: equal images are equal data -/

section
namespace Sys2Proof.Machine

/-- A list of cells by rising address reads as each of its cells. -/
theorem byteAt_of_mem {cs : List Host.Cell} (hs : cs.Pairwise (fun x y => x.1 < y.1)) {c : Host.Cell} (hc : c ∈ cs) :
    byteAt cs c.1 = c.2 := by
  induction cs with
  | nil => cases hc
  | cons d cs ih =>
    obtain ⟨hd, hcs⟩ := List.pairwise_cons.mp hs
    rcases List.mem_cons.mp hc with rfl | hc
    · simp [byteAt]
    · simp [byteAt, hd c hc, ih hcs hc]

/-- What does not read as unlisted is a cell. -/
theorem mem_of_byteAt_ne {cs : List Host.Cell} {a : Nat} (h : byteAt cs a ≠ Memory.unlisted) :
    (a, byteAt cs a) ∈ cs := by
  induction cs with
  | nil => exact absurd rfl h
  | cons c cs ih =>
    rw [byteAt] at h ⊢
    split
    case isTrue hlt =>
      rw [if_pos hlt] at h
      exact List.mem_cons_of_mem c (ih h)
    case isFalse hlt =>
      rw [if_neg hlt] at h
      split
      case isTrue heq => exact List.mem_cons.mpr (Or.inl (by rw [← heq]))
      case isFalse hne => exact absurd (if_neg hne) h

/-- The cells of a canonical image are exactly its bytes that are not unlisted. -/
theorem mem_cells_iff {m : Memory} (hm : m.wf) {c : Host.Cell} :
    c ∈ m.cells ↔ m.byte c.1 = c.2 ∧ c.2 ≠ Memory.unlisted := by
  obtain ⟨hsorted, hcells⟩ := hm
  constructor
  · intro hc
    exact ⟨byteAt_of_mem hsorted hc, (hcells c hc).2⟩
  · rintro ⟨hb, hne⟩
    have hmem := mem_of_byteAt_ne (cs := m.cells) (a := c.1) (by rwa [← hb] at hne)
    rwa [show byteAt m.cells c.1 = c.2 from hb] at hmem

/-- Past IMG_LEN a canonical image reads as unlisted. -/
theorem byte_past_len {m : Memory} (hm : m.wf) {a : Nat} (ha : m.len ≤ a) : m.byte a = Memory.unlisted :=
  byteAt_high m.cells a fun c hc => (hm.2 c hc).1.trans_le ha

/-- Lists of cells by rising address with the same members are equal. -/
theorem cells_eq_of_mem_iff {cs ds : List Host.Cell} (hc : cs.Pairwise (fun x y => x.1 < y.1))
    (hd : ds.Pairwise (fun x y => x.1 < y.1)) (h : ∀ c, c ∈ cs ↔ c ∈ ds) : cs = ds := by
  have : Std.Irrefl (fun x y : Host.Cell => x.1 < y.1) := ⟨fun c => lt_irrefl c.1⟩
  have : Std.Antisymm (fun x y : Host.Cell => x.1 < y.1) := ⟨fun _ _ hxy hyx => absurd hyx hxy.asymm⟩
  exact hc.eq_of_mem_iff hd h

/-- Settles O42: images with the same bytes have the same cells. -/
theorem equalImagesAreEqualData : Obligations.EqualImagesAreEqualData := by
  rintro ⟨len, cells⟩ ⟨_, cells'⟩ hm hm' rfl hbytes
  have hall (a : Nat) : (Memory.mk len cells).byte a = (Memory.mk len cells').byte a := by
    rcases lt_or_ge a len with ha | ha
    · exact hbytes a ha
    · rw [byte_past_len hm ha, byte_past_len hm' ha]
  have hcells : cells = cells' :=
    cells_eq_of_mem_iff hm.1 hm'.1 fun c => by rw [mem_cells_iff hm, mem_cells_iff hm', hall c.1]
  rw [hcells]

end Sys2Proof.Machine
end

/-! ## The encoding: decoder, encoder, patterns and reserved words

The word is read through its three fields. `decode_eq_ok_iff` says once which words decode to a command: those whose fields
are that command's. -/

section
namespace Sys2Proof

open Sys2Proof.Machine Sys2Proof.Claims

/-! ### The fields of a word (30_encoding.md R66) -/

@[simp] theorem CmdWord.split_join (c : CmdWord) : CmdWord.split c.join = c := by
  obtain ⟨rsv, fill, opc⟩ := c
  simp only [CmdWord.split, CmdWord.join, CmdWord.mk.injEq]
  exact ⟨(BitVec.extractLsb'_append_eq_of_le (by decide)).trans BitVec.extractLsb'_append_eq_left,
    (BitVec.extractLsb'_append_eq_of_le (by decide)).trans BitVec.extractLsb'_append_eq_right,
    BitVec.extractLsb'_append_eq_right⟩

@[simp] theorem CmdWord.join_split (w : Word) : (CmdWord.split w).join = w := by
  have hhigh : w.extractLsb' 16 16 ++ w.extractLsb' 8 8 = w.extractLsb' 8 24 :=
    BitVec.extractLsb'_append_extractLsb'_eq_extractLsb' rfl
  simp only [CmdWord.split, CmdWord.join, hhigh]
  exact BitVec.extractLsb'_append_extractLsb'

/-- A word is the one with the given fields exactly when these are its fields. -/
theorem CmdWord.join_eq_iff {c : CmdWord} {w : Word} : c.join = w ↔ c = CmdWord.split w :=
  ⟨fun h => by rw [← h, split_join], fun h => by rw [h, join_split]⟩

theorem CmdWord.split_inj {v w : Word} : CmdWord.split v = CmdWord.split w ↔ v = w := by
  rw [← CmdWord.join_eq_iff, CmdWord.join_split]

theorem encode_eq_iff {i : Instr} {w : Word} : encode i = w ↔ i.cmdWord = CmdWord.split w :=
  CmdWord.join_eq_iff

/-! ### The decoder, check by check (30_encoding.md R70) -/

/-- The opcode map reads back the opcode of every command's word. -/
theorem ofOpcode_cmdWord (i : Instr) : Instr.ofOpcode i.cmdWord.opc i.cmdWord.fill = some i := by
  cases i <;> rfl

/-- A command's word holds a FILL other than 0 only where the command uses it. -/
theorem cmdWord_fill (i : Instr) : i.cmdWord.fill = 0#8 ∨ i.usesFill = true := by
  cases i
  case padTo | padBy => exact Or.inr rfl
  all_goals exact Or.inl rfl

theorem cmdWord_rsv (i : Instr) : i.cmdWord.rsv = 0#16 := by
  cases i <;> rfl

/-- What the opcode map answers, where FILL is allowed, is the command with these fields. -/
theorem cmdWord_of_ofOpcode {opc fill : Byte} {i : Instr} (h : Instr.ofOpcode opc fill = some i)
    (hfill : fill = 0#8 ∨ i.usesFill = true) : i.cmdWord = ⟨0#16, fill, opc⟩ := by
  unfold Instr.ofOpcode at h
  split at h
  case h_14 => cases h
  all_goals
    cases h
    simp_all [Instr.usesFill, Instr.cmdWord, ← BitVec.toNat_inj]

/-- A word's fields are a command's exactly when RSV is 0, the opcode map answers the command, and FILL is allowed. -/
theorem cmdWord_eq_iff {i : Instr} {c : CmdWord} :
    i.cmdWord = c ↔ c.rsv = 0#16 ∧ Instr.ofOpcode c.opc c.fill = some i ∧ (c.fill = 0#8 ∨ i.usesFill = true) := by
  constructor
  · rintro rfl
    exact ⟨cmdWord_rsv i, ofOpcode_cmdWord i, cmdWord_fill i⟩
  · obtain ⟨rsv, fill, opc⟩ := c
    rintro ⟨rfl, hop, hfill⟩
    exact cmdWord_of_ofOpcode hop hfill

theorem decode_of_rsv {w : Word} (h : (CmdWord.split w).rsv ≠ 0#16) : decode w = .error .reservedBits :=
  if_pos h

theorem decode_of_ofOpcode_none {w : Word} (hr : (CmdWord.split w).rsv = 0#16)
    (ho : Instr.ofOpcode (CmdWord.split w).opc (CmdWord.split w).fill = none) : decode w = .error .reservedOpcode := by
  unfold decode
  rw [if_neg (not_not.mpr hr), ho]

theorem decode_of_fill {w : Word} {i : Instr} (hr : (CmdWord.split w).rsv = 0#16)
    (ho : Instr.ofOpcode (CmdWord.split w).opc (CmdWord.split w).fill = some i)
    (hf : ¬((CmdWord.split w).fill = 0#8 ∨ i.usesFill = true)) : decode w = .error .fillNotZero := by
  unfold decode
  rw [if_neg (not_not.mpr hr), ho]
  exact if_pos (by simpa using hf)

theorem decode_of_allowed {w : Word} {i : Instr} (hr : (CmdWord.split w).rsv = 0#16)
    (ho : Instr.ofOpcode (CmdWord.split w).opc (CmdWord.split w).fill = some i)
    (hf : (CmdWord.split w).fill = 0#8 ∨ i.usesFill = true) : decode w = .ok i := by
  unfold decode
  rw [if_neg (not_not.mpr hr), ho]
  exact if_neg (by simpa [or_iff_not_imp_left] using hf)

/-- A word decodes to a command exactly when its fields are that command's. -/
theorem decode_eq_ok_iff {w : Word} {i : Instr} : decode w = .ok i ↔ i.cmdWord = CmdWord.split w := by
  rw [cmdWord_eq_iff]
  by_cases hr : (CmdWord.split w).rsv = 0#16
  case neg => simp [decode_of_rsv hr, hr]
  case pos =>
    cases ho : Instr.ofOpcode (CmdWord.split w).opc (CmdWord.split w).fill with
    | none => simp [decode_of_ofOpcode_none hr ho]
    | some j =>
      by_cases hf : (CmdWord.split w).fill = 0#8 ∨ j.usesFill = true
      · simp only [decode_of_allowed hr ho hf, hr, Except.ok.injEq, Option.some.injEq, true_and]
        exact ⟨fun h => ⟨h, h ▸ hf⟩, And.left⟩
      · simp only [decode_of_fill hr ho hf, hr, reduceCtorEq, Option.some.injEq, true_and, false_iff, not_and]
        exact fun h => h ▸ hf

/-- Settles O1: both sides say that the word's fields are the command's. -/
theorem decodeEncodeAgree : Obligations.DecodeEncodeAgree := fun _ _ =>
  decode_eq_ok_iff.trans encode_eq_iff.symm

/-! ### The patterns (30_encoding.md R69) -/

/-- The mask 0xFFFF00FF clears FILL and keeps the other fields. -/
theorem split_and_fillMask (w : Word) :
    CmdWord.split (w &&& 0xFFFF00FF#32) = { CmdWord.split w with fill := 0#8 } := by
  simp only [CmdWord.split, BitVec.extractLsb'_and, CmdWord.mk.injEq]
  exact ⟨BitVec.and_allOnes, BitVec.and_zero, BitVec.and_allOnes⟩

/-- A pattern of a command that does not use FILL: it compares every field with the command's. -/
def ComparesWholeWord (p : Pattern) : Prop :=
  p.maskBits = 0xFFFFFFFF#32 ∧ ∀ fill, (p.command fill).cmdWord = CmdWord.split p.matchBits

/-- A pattern of a command that uses FILL: it compares the other fields and hands FILL to the command. -/
def LeavesFillOut (p : Pattern) : Prop :=
  p.maskBits = 0xFFFF00FF#32 ∧ (CmdWord.split p.matchBits).fill = 0#8 ∧
    ∀ fill, (p.command fill).cmdWord = { CmdWord.split p.matchBits with fill := fill }

theorem patterns_kind : ∀ p ∈ patterns, ComparesWholeWord p ∨ LeavesFillOut p := by
  simp only [patterns, List.forall_mem_cons, List.not_mem_nil, false_imp_iff, implies_true, and_true]
  refine ⟨?_, ?_, ?_, ?_, ?_, ?_, ?_, ?_, ?_, ?_, ?_, ?_, ?_⟩
  case refine_11 | refine_12 => exact Or.inr ⟨rfl, rfl, fun _ => rfl⟩
  all_goals exact Or.inl ⟨rfl, fun _ => rfl⟩

/-- Two records of fields that agree but for FILL, one with FILL 0. -/
theorem CmdWord.clearFill_eq_iff {c d : CmdWord} (hd : d.fill = 0#8) :
    { c with fill := 0#8 } = d ↔ { d with fill := c.fill } = c := by
  obtain ⟨rsv, fill, opc⟩ := c
  obtain ⟨rsv', fill', opc'⟩ := d
  simp only at hd
  simp [hd, eq_comm]

/-- A word matches a pattern exactly when it decodes to the pattern's command with the word's own FILL. -/
theorem matches_iff_decode {p : Pattern} (hp : p ∈ patterns) (w : Word) :
    p.Matches w ↔ decode w = .ok (p.command (w.extractLsb' 8 8)) := by
  rw [Pattern.Matches, ← CmdWord.split_inj, decode_eq_ok_iff]
  rcases patterns_kind p hp with ⟨hmask, hcmd⟩ | ⟨hmask, hfill, hcmd⟩
  · have hwhole : w &&& 0xFFFFFFFF#32 = w := BitVec.and_allOnes
    rw [hmask, hwhole, hcmd, eq_comm]
  · rw [hmask, split_and_fillMask, hcmd]
    exact CmdWord.clearFill_eq_iff hfill

/-- Every command is the one that some pattern selects, given the FILL of its word. -/
theorem exists_pattern (i : Instr) : ∃ p ∈ patterns, i = p.command i.cmdWord.fill := by
  cases i <;> simp [patterns, Instr.cmdWord]

/-- Different patterns select different commands. -/
theorem patterns_command_ne : patterns.Pairwise fun p q => ∀ fill, p.command fill ≠ q.command fill := by
  simp [patterns]

/-- Settles O2: a pattern matches the words of its command, so two that match one word would select one command. -/
theorem patternsSelectCommands : Obligations.PatternsSelectCommands := by
  constructor
  · intro w i
    constructor
    · intro hd
      obtain ⟨p, hp, hi⟩ := exists_pattern i
      rw [decode_eq_ok_iff.mp hd] at hi
      exact ⟨p, hp, (matches_iff_decode hp w).mpr (hi ▸ hd), hi⟩
    · rintro ⟨p, hp, hm, rfl⟩
      exact (matches_iff_decode hp w).mp hm
  · refine patterns_command_ne.imp_of_mem fun hp hq hne w ⟨hpw, hqw⟩ => hne (w.extractLsb' 8 8) ?_
    exact Except.ok.inj (((matches_iff_decode hp w).mp hpw).symm.trans ((matches_iff_decode hq w).mp hqw))

/-! ### The reserved words (30_encoding.md R71) -/

theorem CmdWord.opcNamed_iff {c : CmdWord} : c.opcNamed = true ↔
    (0x01 ≤ c.opc.toNat ∧ c.opc.toNat ≤ 0x06) ∨ (0x10 ≤ c.opc.toNat ∧ c.opc.toNat ≤ 0x16) := by
  simp [CmdWord.opcNamed]

/-- The opcodes that R71 reserves are those that R70 does not name. -/
theorem CmdWord.not_opcNamed_iff {c : CmdWord} :
    (c.opc = 0x00#8 ∨ (0x07 ≤ c.opc.toNat ∧ c.opc.toNat ≤ 0x0F) ∨ 0x17 ≤ c.opc.toNat) ↔ ¬ c.opcNamed = true := by
  rw [opcNamed_iff, ← BitVec.toNat_inj, BitVec.toNat_ofNat]
  omega

theorem CmdWord.fillAllowed_iff {c : CmdWord} :
    c.fillAllowed = true ↔ c.fill = 0#8 ∨ c.opc = 0x14#8 ∨ c.opc = 0x15#8 := by
  simp [CmdWord.fillAllowed, or_assoc]

theorem CmdWord.wellFormed_iff {c : CmdWord} :
    c.WellFormed = true ↔ c.rsv = 0#16 ∧ c.opcNamed = true ∧ c.fillAllowed = true := by
  simp [CmdWord.WellFormed, CmdWord.rsvZero, and_assoc]

theorem cmdWord_wellFormed : ∀ i : Instr, i.cmdWord.WellFormed = true
  | .checksum => Laws.Encoding.checksum.1
  | .hdecode => Laws.Encoding.hdecode.1
  | .hencode => Laws.Encoding.hencode.1
  | .hrecomp => Laws.Encoding.hrecomp.1
  | .hdefault => Laws.Encoding.hdefault.1
  | .hrender => Laws.Encoding.hrender.1
  | .load => Laws.Encoding.load.1
  | .store => Laws.Encoding.store.1
  | .hoverwrite => Laws.Encoding.hoverwrite.1
  | .hprepend => Laws.Encoding.hprepend.1
  | .padTo fill => (Laws.Encoding.padTo fill).1
  | .padBy fill => (Laws.Encoding.padBy fill).1
  | .injectAt => Laws.Encoding.injectAt.1

/-- Each opcode that R70 names is in the opcode map. -/
theorem exists_ofOpcode {c : CmdWord} (h : c.opcNamed = true) : ∃ i, Instr.ofOpcode c.opc c.fill = some i := by
  have hrange := CmdWord.opcNamed_iff.mp h
  unfold Instr.ofOpcode
  split
  case h_14 =>
    simp only [imp_false] at *
    omega
  all_goals exact ⟨_, rfl⟩

/-- The well-formed fields are those of the commands' words. -/
theorem wellFormed_iff_exists {c : CmdWord} : c.WellFormed = true ↔ ∃ i : Instr, i.cmdWord = c := by
  constructor
  · intro h
    obtain ⟨hrsv, hopc, hfill⟩ := CmdWord.wellFormed_iff.mp h
    obtain ⟨i, hi⟩ := exists_ofOpcode hopc
    refine ⟨i, cmdWord_eq_iff.mpr ⟨hrsv, hi, (CmdWord.fillAllowed_iff.mp hfill).imp_right fun huse => ?_⟩⟩
    rcases huse with hpad | hpad
    all_goals
      rw [hpad] at hi
      cases hi
      rfl
  · rintro ⟨i, rfl⟩
    exact cmdWord_wellFormed i

/-- The reserved words are those whose fields fail a check. -/
theorem reserved_iff {w : Word} : Reserved w ↔ ¬ (CmdWord.split w).WellFormed = true := by
  have hfill : (w.extractLsb' 8 8 ≠ 0#8 ∧ w.extractLsb' 0 8 ≠ 0x14#8 ∧ w.extractLsb' 0 8 ≠ 0x15#8) ↔
      ¬ (CmdWord.split w).fillAllowed = true := by
    rw [CmdWord.fillAllowed_iff, not_or, not_or]
    rfl
  calc Reserved w
    _ ↔ ¬ (CmdWord.split w).opcNamed = true ∨ ¬ (CmdWord.split w).rsv = 0#16 ∨
          ¬ (CmdWord.split w).fillAllowed = true :=
        or_congr (CmdWord.not_opcNamed_iff (c := CmdWord.split w)) (or_congr Iff.rfl hfill)
    _ ↔ ¬ (CmdWord.split w).WellFormed = true := by
        rw [CmdWord.wellFormed_iff, not_and_or, not_and_or, or_left_comm]

theorem reserved_iff_decode {w : Word} : Reserved w ↔ ∀ i, decode w ≠ .ok i := by
  simp only [reserved_iff, wellFormed_iff_exists, not_exists, ne_eq, decode_eq_ok_iff]

/-- A write of a word that spells no command is refused (30_encoding.md R70, R71). -/
theorem commandWrite_of_not_ok {w : Word} (h : ∀ i, decode w ≠ .ok i) (s : State) :
    commandWrite w s = .next s.refuse := by
  unfold commandWrite
  split
  case h_1 => rfl
  case h_2 i hi => exact absurd hi (h i)

/-- Settles O3: the step is HOST's write to CMD, which refuses the word. -/
theorem reservedWordsRefused : Obligations.ReservedWordsRefused := by
  refine ⟨fun w => reserved_iff_decode, fun s ops w he ho hw => ?_⟩
  calc step s
    _ = hostWrite 0x00 (.num w.toNat) { s with hostOps := ops } := step_idle_cons he ho
    _ = commandWrite w { s with hostOps := ops } := by
        rw [hostWrite_cmd (s := { s with hostOps := ops }) he, fitBits_toNat, Option.elim_some]
    _ = .next { s with hostOps := ops, refused := true } := commandWrite_of_not_ok (reserved_iff_decode.mp hw) _

/-! ### Sample words (95_test_vectors.md section 2.7) -/

/-- Settles O4: each word that decodes is its command's; each other one fails the check named. -/
theorem sampleWordsDecode : Obligations.SampleWordsDecode :=
  ⟨(decodeEncodeAgree _ .checksum).mpr rfl, (decodeEncodeAgree _ .hencode).mpr rfl, (decodeEncodeAgree _ .load).mpr rfl,
    (decodeEncodeAgree _ (.padTo 0xFF#8)).mpr rfl, (decodeEncodeAgree _ .injectAt).mpr rfl,
    decode_of_ofOpcode_none rfl rfl, decode_of_rsv (by decide), decode_of_fill (i := .checksum) rfl rfl (by decide),
    decode_of_ofOpcode_none rfl rfl⟩

end Sys2Proof
end

/-! ## The word step, accumulator by accumulator (41_checksum_engine.md R79 to R83) -/

section
namespace Sys2Proof.Machine

/-! ### The lines of R80 -/

section
variable (tie : Config.AuxTie) (acc : Acc) (w : Word)

@[simp] theorem wordStep_roll : (wordStep tie acc w).roll = acc.roll + w := rfl

@[simp] theorem wordStep_carry :
    (wordStep tie acc w).carry = if carries (acc.roll + w) acc.roll then acc.carry + 1#32 else acc.carry := rfl

@[simp] theorem wordStep_xor : (wordStep tie acc w).xor = acc.xor ^^^ w := rfl

@[simp] theorem wordStep_rot : (wordStep tie acc w).rot = acc.rot + rotWord w := rfl

@[simp] theorem wordStep_aux : (wordStep tie acc w).aux =
    if auxSelect tie acc.aux w then acc.aux ^^^ ((acc.roll + w) ^^^ w) else acc.aux ^^^ rotWord w := rfl

@[simp] theorem wordStep_wsum : (wordStep tie acc w).wsum = acc.wsum + (w ^^^ (acc.rot + rotWord w)) := rfl

end

/-- Settles O12: INITIAL is computed. -/
theorem seedIsInitial : Obligations.SeedIsInitial := by
  unfold Obligations.SeedIsInitial
  decide

/-! ### The rotated word (R79) -/

/-- The source's two cases are one: a right shift by 32 places leaves nothing to join to `w`. -/
theorem rotWord_eq_rotateLeft (w : Word) : rotWord w = w.rotateLeft (w.toNat % 32) := by
  have hs : (w.extractLsb' 0 5).toNat = w.toNat % 32 := by simp [BitVec.extractLsb'_toNat]
  rw [BitVec.rotateLeft_def, Nat.mod_mod, rotWord, hs]
  split
  case isTrue h0 => simp [h0, BitVec.ushiftRight_eq_zero]
  case isFalse => rfl

theorem rotWord_of_low_zero {w : Word} (h : w.toNat % 32 = 0) : rotWord w = w := by
  simp [rotWord_eq_rotateLeft, h, BitVec.rotateLeft_def, BitVec.ushiftRight_eq_zero]

/-- Settles O13: the source's special case agrees with the plain rotation. -/
theorem rotIsRotateLeft : Obligations.RotIsRotateLeft := fun w => ⟨rotWord_eq_rotateLeft w, rotWord_of_low_zero⟩

/-! ### The carry (R82) -/

theorem carries_iff_toNat_lt (newSum roll : Word) : carries newSum roll = true ↔ newSum.toNat < roll.toNat :=
  BitVec.ult_iff_lt

/-- The wrapped sum is below an addend exactly when the sum wrapped. -/
theorem carries_add_iff (roll w : Word) : carries (roll + w) roll = true ↔ 2 ^ 32 ≤ roll.toNat + w.toNat := by
  rw [carries_iff_toNat_lt, BitVec.toNat_add]
  omega

theorem wordStep_carry_eq (tie : Config.AuxTie) (acc : Acc) (w : Word) : (wordStep tie acc w).carry =
    if 2 ^ 32 ≤ acc.roll.toNat + w.toNat then acc.carry + 1#32 else acc.carry := by
  simp only [wordStep_carry, carries_add_iff]

theorem wordStep_carry_zero (tie : Config.AuxTie) (acc : Acc) : (wordStep tie acc 0#32).carry = acc.carry := by
  have hroll : acc.roll.toNat + (0#32).toNat < 2 ^ 32 := acc.roll.isLt
  rw [wordStep_carry_eq, if_neg (Nat.not_le.mpr hroll)]

/-- `n` words from the seed add at most `n` to ACC_CARRY, which has room for 0x40000 of them. -/
theorem windowLoop_carry_bounds (tie : Config.AuxTie) (m : Memory) (a n : Nat) (hn : n ≤ 0x40000) :
    0xF8CA4DDC ≤ (windowLoop tie m a Acc.seed n).carry.toNat ∧
    (windowLoop tie m a Acc.seed n).carry.toNat ≤ 0xF8CA4DDC + n := by
  induction n with
  | zero =>
    have hseed : Acc.seed.carry.toNat = 0xF8CA4DDC := by decide
    rw [windowLoop_zero, hseed]
    omega
  | succ n ih =>
    obtain ⟨hlo, hhi⟩ := ih (by omega)
    rw [windowLoop_snoc, wordStep_carry_eq]
    split
    · rw [BitVec.toNat_add, BitVec.toNat_ofNat]
      omega
    · omega

/-- Settles O15, the bound by induction on the number of words. -/
theorem carryCountsOverflows : Obligations.CarryCountsOverflows := by
  refine ⟨carries_add_iff, wordStep_carry_eq, wordStep_carry_zero, fun tie m a n hn => ?_⟩
  obtain ⟨hlo, hhi⟩ := windowLoop_carry_bounds tie m a n hn
  exact ⟨hlo, hhi, by omega⟩

/-! ### The ACC_AUX select (R83) -/

theorem auxSelect_doc_iff (a w : Word) : auxSelect .doc a w = true ↔ a.toNat < w.toNat := BitVec.ult_iff_lt

theorem auxSelect_orig_iff (a w : Word) : auxSelect .orig a w = true ↔ a.toNat < w.toNat ∨ a = w := by
  rw [auxSelect, Bool.or_eq_true, beq_iff_eq]
  exact or_congr_left BitVec.ult_iff_lt

theorem auxSelect_iff (tie : Config.AuxTie) (a w : Word) :
    auxSelect tie a w = true ↔ a.toNat < w.toNat ∨ (tie = .orig ∧ a = w) := by
  cases tie with
  | doc => simp [auxSelect_doc_iff]
  | orig => simp [auxSelect_orig_iff]

theorem auxSelect_doc_eq_orig {a w : Word} (h : a ≠ w) : auxSelect .doc a w = auxSelect .orig a w := by
  rw [Bool.eq_iff_iff, auxSelect_doc_iff, auxSelect_orig_iff, or_iff_left h]

/-- P_AUX_TIE has a part in the select only. -/
theorem wordStep_congr_tie {tie tie' : Config.AuxTie} {acc : Acc} {w : Word}
    (h : auxSelect tie acc.aux w = auxSelect tie' acc.aux w) : wordStep tie acc w = wordStep tie' acc w := by
  rw [wordStep, h]
  rfl

/-- Settles O16: the settings differ in the select only, and there only on the tie. -/
theorem auxTieBranches : Obligations.AuxTieBranches := by
  refine ⟨fun a w => ⟨auxSelect_doc_iff a w, auxSelect_orig_iff a w⟩,
    fun acc w h => wordStep_congr_tie (auxSelect_doc_eq_orig h), fun acc w h => ⟨?_, ?_⟩⟩
  · have hdoc : ¬ auxSelect .doc acc.aux w = true := by simp [auxSelect_doc_iff, h]
    rw [wordStep_aux, if_neg hdoc]
  · rw [wordStep_aux, if_pos ((auxSelect_orig_iff _ _).mpr (.inr h))]

/-- Settles O14, each accumulator by its own line. -/
theorem wordStepLines : Obligations.WordStepLines := by
  intro tie acc w
  refine ⟨BitVec.toNat_add _ _, ?_, ?_, rfl, ?_, BitVec.toNat_add _ _⟩
  · simp only [wordStep_carry, carries_iff_toNat_lt, BitVec.toNat_add, apply_ite BitVec.toNat, BitVec.toNat_ofNat]
  · rw [wordStep_rot, BitVec.toNat_add, rotWord_eq_rotateLeft]
  · simp only [wordStep_aux, auxSelect_iff, wordStep_roll, rotWord_eq_rotateLeft]

end Sys2Proof.Machine
end

/-! ## The pair of the window (41_checksum_engine.md R76 to R78, R84, R87, R88) -/

section
namespace Sys2Proof.Machine

open Sys2Proof.Claims

/-- Settles O17, by the length test. -/
theorem checksumFoldsWindow : Obligations.ChecksumFoldsWindow := fun tie _ =>
  ⟨checksumFn_of_short tie, checksumFn_of_long tie⟩

/-- The fold of the loop's accumulators is the pair of the window's words (41_checksum_engine.md R84). -/
theorem fold_windowLoop (tie : Config.AuxTie) (m : Memory) :
    (windowLoop tie m 0x1000 Acc.seed 0x40000).fold = pairOf tie (wordsFrom m 0x1000) := by
  rw [windowLoop_eq_foldl, wordsFrom_eq]
  rfl

theorem checksumFn_eq_fold (tie : Config.AuxTie) {m : Memory} (hl : 0x101000 ≤ m.len) :
    checksumFn tie m = some (windowLoop tie m 0x1000 Acc.seed 0x40000).fold := by
  rw [checksumFn_of_long tie hl, fold_windowLoop]

/-- Settles O18: the loop reads the window's addresses only. -/
theorem checksumReadsWindowOnly : Obligations.ChecksumReadsWindowOnly := by
  intro tie m m' hl hl' h
  rw [checksumFn_eq_fold tie hl, checksumFn_eq_fold tie hl', windowLoop_congr tie 0x40000 m m' 0x1000 Acc.seed h]

/-! ### The zero window -/

/-- The word 0 adds ACC_ROT to ACC_WSUM and does no more, where ACC_AUX is not 0 too. -/
theorem wordStep_zero (tie : Config.AuxTie) {acc : Acc} (h : acc.aux ≠ 0#32) :
    wordStep tie acc 0#32 = { acc with wsum := acc.wsum + acc.rot } := by
  have hsel : ¬ auxSelect tie acc.aux 0#32 = true := by simp [auxSelect_iff, h]
  have hrot : rotWord 0#32 = 0#32 := rotWord_of_low_zero rfl
  have hcarry : ¬ carries acc.roll acc.roll = true := by simp [carries_iff_toNat_lt]
  simp [wordStep, hsel, hrot, hcarry]

/-- The accumulators after `n` zero words: ACC_WSUM has gained INITIAL `n` times. -/
def accAfterZeros (n : Nat) : Acc := { Acc.seed with wsum := BitVec.ofNat 32 (n + 1) * ckInitial }

theorem wordStep_accAfterZeros (tie : Config.AuxTie) (n : Nat) :
    wordStep tie (accAfterZeros n) 0#32 = accAfterZeros (n + 1) := by
  have haux : (accAfterZeros n).aux ≠ 0#32 := by change ckInitial ≠ 0#32; decide
  have hsum : BitVec.ofNat 32 (n + 1) * ckInitial + ckInitial = BitVec.ofNat 32 (n + 1 + 1) * ckInitial := by
    rw [BitVec.ofNat_add (n + 1) 1, BitVec.add_mul, BitVec.one_mul]
  rw [wordStep_zero tie haux]
  exact congrArg (fun x => { Acc.seed with wsum := x }) hsum

theorem word_of_zero_bytes {m : Memory} {a : Nat} (h : ∀ x, a ≤ x → x < a + 4 → m.byte x = 0x00#8) :
    m.word a = 0#32 := by
  rw [Memory.word, h a (by omega) (by omega), h (a + 1) (by omega) (by omega), h (a + 2) (by omega) (by omega),
    h (a + 3) (by omega) (by omega)]
  rfl

theorem windowLoop_of_zero_bytes (tie : Config.AuxTie) {m : Memory} {a n : Nat}
    (h : ∀ x, a ≤ x → x < a + 4 * n → m.byte x = 0x00#8) : windowLoop tie m a Acc.seed n = accAfterZeros n := by
  induction n with
  | zero => rfl
  | succ n ih =>
    rw [windowLoop_snoc, ih fun x h₁ h₂ => h x h₁ (by omega),
      word_of_zero_bytes fun x h₁ h₂ => h x (by omega) (by omega), wordStep_accAfterZeros]

/-- Settles O19, by induction on the number of zero words. -/
theorem zeroWindowPair : Obligations.ZeroWindowPair := by
  intro tie m hl h
  have hfold : (accAfterZeros 0x40000).fold = (0xF8CA4DDC#32, 0x303A4DDC#32) := by decide
  rw [checksumFn_eq_fold tie hl, windowLoop_of_zero_bytes tie h, hfold]

/-! ### The commands that run ChecksumFn -/

/-- A command that runs ChecksumFn finishes on the image's pair (41_checksum_engine.md R88, 42_header_codec.md R99,
R100). -/
theorem exec_of_runCmd {i : Instr} {c : RunCmd} (hc : runCmd i = some c) (s : State) :
    exec i s = .next (s.withPair fun pair => finishRun c pair s) := by
  cases i <;> cases hc <;> rfl

section
variable {i : Instr} {c : RunCmd} {s : State} {m : Memory}

theorem exec_run_long (hc : runCmd i = some c) (hm : s.img = some m) (hl : 0x101000 ≤ m.len) :
    exec i s = .next (finishRun c (pairOf s.params.auxTie (wordsFrom m 0x1000)) s) := by
  rw [exec_of_runCmd hc, withPair_of_long _ hm hl]

theorem exec_run_short (hc : runCmd i = some c) (hm : s.img = some m) (hl : m.len < 0x101000) :
    exec i s = .next (s.raise .insufficientData) := by
  rw [exec_of_runCmd hc, withPair_of_short _ hm hl]

end

/-- Settles O20, by the length of the image. -/
theorem checksumCommandCompletes : Obligations.ChecksumCommandCompletes := fun _ _ hm =>
  ⟨exec_run_long (i := .checksum) rfl hm, exec_run_short (i := .checksum) rfl hm⟩

/-- Settles O26, by the length of the image. -/
theorem hrecompCommandCompletes : Obligations.HrecompCommandCompletes := fun _ _ hm =>
  ⟨exec_run_long (i := .hrecomp) rfl hm, exec_run_short (i := .hrecomp) rfl hm⟩

/-- Settles O21, by what the first CHECKSUM found: IMG unwritten, a short image, or a pair. It leaves IMG and P_AUX_TIE, so
the second one finds the same and writes it again. -/
theorem checksumTwiceSame : Obligations.ChecksumTwiceSame := by
  intro s t h
  rcases hm : s.img with _ | m
  · rw [exec_img_unwritten (i := .checksum) hm trivial] at h
    cases h
    exact exec_img_unwritten (s := s.fault .unwritten) (i := .checksum) hm trivial
  · have hc : runCmd .checksum = some .checksum := rfl
    obtain hl | hl := Nat.lt_or_ge m.len 0x101000
    · rw [exec_run_short hc hm hl] at h
      cases h
      exact exec_run_short (s := s.raise .insufficientData) hc hm hl
    · rw [exec_run_long hc hm hl] at h
      cases h
      exact exec_run_long (s := s.finishChecksum (pairOf s.params.auxTie (wordsFrom m 0x1000))) hc hm hl

/-- Settles O56, by the length of the one image. -/
theorem checksumIgnoresHistory : Obligations.ChecksumIgnoresHistory := by
  intro s s' m hm hm' htie
  obtain ⟨hlong, hshort⟩ := checksumCommandCompletes s m hm
  obtain ⟨hlong', hshort'⟩ := checksumCommandCompletes s' m hm'
  obtain hl | hl := Nat.lt_or_ge m.len 0x101000
  · exact ⟨_, _, hshort hl, hshort' hl, rfl, fun h => absurd (Option.some.inj h) (by decide), rfl⟩
  · rw [← htie] at hlong'
    exact ⟨_, _, hlong hl, hlong' hl, rfl, fun _ => ⟨rfl, rfl, rfl, rfl⟩, rfl⟩

end Sys2Proof.Machine
end

/-! ## The word-step decomposition of a run (41_checksum_engine.md R89) -/

section
namespace Sys2Proof.Machine

open Sys2Proof.Claims

/-! ### Several steps -/

theorem run_add {M : Host.Core} {k : Nat} {s t : M.State} (h : M.run k s = .next t) (n : Nat) :
    M.run (k + n) s = M.run n t := by
  induction k generalizing s with
  | zero =>
    cases h
    rw [Nat.zero_add]
  | succ k ih =>
    rw [Nat.succ_add, Host.Core.run]
    rw [Host.Core.run] at h
    split at h
    · exact ih h
    · cases h
    · cases h

theorem run_step {s t : State} (h : step s = .next t) (n : Nat) :
    Sys2Proof.core.run (n + 1) s = Sys2Proof.core.run n t := by
  simp only [Host.Core.run, core_step]
  rw [h]

/-! ### ENGINE's rows -/

section
variable (c : RunCmd) (s : State) (acc : Acc) (a : Nat)

/-- From SEED to LOOP. -/
theorem step_seed : step { s with eng := .seed c } = .next { s with eng := .loop c Acc.seed ckStart } := rfl

/-- LOOP takes the word at WPTR. -/
theorem step_loop_word {m : Memory} (hm : s.img = some m) (ha : a < ckMinLen) (hl : a + 4 ≤ m.len) :
    step { s with eng := .loop c acc a } =
      .next { s with eng := .loop c (wordStep s.params.auxTie acc (m.word a)) (a + 4) } := by
  simp [step, engineStep, ha, hm, Memory.read32, hl]

/-- From LOOP to FOLD. -/
theorem step_loop_end (ha : ckMinLen ≤ a) :
    step { s with eng := .loop c acc a } = .next { s with eng := .fold c acc a } := by
  simp [step, engineStep, Nat.not_lt.mpr ha]

/-- FOLD: the issuing command finishes. -/
theorem step_fold : step { s with eng := .fold c acc a } = .next (finishRun c acc.fold { s with eng := .idle }) := rfl

end

/-! ### A run -/

section
variable {c : RunCmd} {s : State} {m : Memory}

theorem startRun_long (hm : s.img = some m) (hl : 0x101000 ≤ m.len) : startRun c s = { s with eng := .seed c } := by
  rw [startRun, need_of_some hm, ckMinLen_eq, if_neg (Nat.not_lt.mpr hl)]

theorem startRun_short (hm : s.img = some m) (hl : m.len < 0x101000) :
    startRun c s = s.raise .insufficientData := by
  rw [startRun, need_of_some hm, ckMinLen_eq, if_pos hl]

/-- `n` LOOP steps inside the window are `n` rounds of the loop over it. -/
theorem run_loop (hm : s.img = some m) (hl : 0x101000 ≤ m.len) (n : Nat) (acc : Acc) (a : Nat)
    (ha : a + 4 * n ≤ 0x101000) :
    Sys2Proof.core.run n { s with eng := .loop c acc a } =
      .next { s with eng := .loop c (windowLoop s.params.auxTie m a acc n) (a + 4 * n) } := by
  induction n generalizing acc a with
  | zero => rfl
  | succ n ih =>
    have hword := step_loop_word c s acc a hm (by rw [ckMinLen_eq]; omega) (by omega)
    have hend : a + 4 + 4 * n = a + 4 * (n + 1) := by ring
    rw [run_step hword, ih _ _ (by omega), windowLoop_succ, hend]

/-- The SEED step and `k` LOOP steps. -/
theorem run_seed_loop (hm : s.img = some m) (hl : 0x101000 ≤ m.len) {k : Nat} (hk : k ≤ 0x40000) :
    Sys2Proof.core.run (k + 1) { s with eng := .seed c } =
      .next { s with eng := .loop c (windowLoop s.params.auxTie m 0x1000 Acc.seed k) (0x1000 + 4 * k) } := by
  rw [run_step (step_seed c s)]
  exact run_loop hm hl k Acc.seed 0x1000 (by omega)

/-- At the window's end, the move to FOLD and the FOLD step. -/
theorem run_loop_end (he : s.eng = .idle) (acc : Acc) :
    Sys2Proof.core.run 2 { s with eng := .loop c acc 0x101000 } = .next (finishRun c acc.fold s) := by
  have hidle : { s with eng := .idle } = s := by rw [← he]
  calc Sys2Proof.core.run 2 { s with eng := .loop c acc 0x101000 }
    _ = Sys2Proof.core.run 1 { s with eng := .fold c acc 0x101000 } :=
      run_step (step_loop_end c s acc _ (le_of_eq ckMinLen_eq)) 1
    _ = .next (finishRun c acc.fold { s with eng := .idle }) := run_step (step_fold c s acc _) 0
    _ = .next (finishRun c acc.fold s) := by rw [hidle]

/-- The SEED step, all the words, and the end. -/
theorem run_seed_to_idle (he : s.eng = .idle) (hm : s.img = some m) (hl : 0x101000 ≤ m.len) :
    Sys2Proof.core.run (0x40000 + 3) { s with eng := .seed c } =
      .next (finishRun c (pairOf s.params.auxTie (wordsFrom m 0x1000)) s) := by
  rw [← fold_windowLoop]
  exact (run_add (run_seed_loop hm hl (le_refl 0x40000)) 2).trans (run_loop_end he _)

end

/-- Settles O22, by induction on the number of LOOP steps (`run_loop`); the fold of the last accumulators is the pair the
command finishes with. -/
theorem wordStepsEqualOneTransition : Obligations.WordStepsEqualOneTransition := by
  intro s m i c he hm hc
  refine ⟨fun hl => ?_, fun hl => ?_⟩
  · rw [startRun_short hm hl, exec_run_short hc hm hl]
  · rw [startRun_long hm hl, exec_run_long hc hm hl]
    exact ⟨rfl, fun k hk => run_seed_loop hm hl hk, run_seed_to_idle he hm hl⟩

end Sys2Proof.Machine
end

/-! ## The header codec (42_header_codec.md R90, R97, R98, R101, R102) -/

section
namespace Sys2Proof.Machine

/-! ### The fields of a header, as bytes -/

/-- The lengths of the thirteen fields, in the order of the layout (42_header_codec.md R90). -/
def fieldLengths : List Nat := [4, 4, 4, 4, 4, 4, 8, 20, 7, 1, 2, 1, 1]

/-- The thirteen fields of an encoded header, cut out at the offsets of the layout (42_header_codec.md R90). -/
def fieldSlices (b : List Byte) : List (List Byte) :=
  [slice b 0x00 4, slice b 0x04 4, slice b 0x08 4, slice b 0x0C 4, slice b 0x10 4, slice b 0x14 4, slice b 0x18 8,
    slice b 0x20 20, slice b 0x34 7, slice b 0x3B 1, slice b 0x3C 2, slice b 0x3E 1, slice b 0x3F 1]

/-- The thirteen fields of a header, each in its bytes (42_header_codec.md R90, R97). -/
def fieldBytes (trunc : Config.TitleTrunc) (h : Header) : List (List Byte) :=
  [beBytes 4 h.cfgFlags.toNat, beBytes 4 h.clockRate.toNat, beBytes 4 h.bootAddress.toNat, beBytes 4 h.luVersion.toNat,
    beBytes 4 h.crcHi.toNat, beBytes 4 h.crcLo.toNat, beBytes 8 h.reserved1.toNat, normTitle trunc h.title,
    beBytes 7 h.reserved2.toNat, beBytes 1 h.category.toNat, beBytes 2 h.unique.toNat, beBytes 1 h.destination.toNat,
    beBytes 1 h.version.toNat]

theorem encodeHeader_eq_flatten (trunc : Config.TitleTrunc) (h : Header) :
    encodeHeader trunc h = (fieldBytes trunc h).flatten := by
  simp [encodeHeader, fieldBytes]

theorem fieldBytes_lengths (trunc : Config.TitleTrunc) (h : Header) :
    (fieldBytes trunc h).map List.length = fieldLengths := by
  simp [fieldBytes, fieldLengths, titleLen]

theorem fieldSlices_eq_splitLengths (b : List Byte) : fieldSlices b = fieldLengths.splitLengths b := by
  simp [fieldSlices, fieldLengths, slice]

/-- The lists that a list was joined from are what it splits into at their lengths. -/
theorem splitLengths_flatten {α : Type} (ls : List (List α)) : (ls.map List.length).splitLengths ls.flatten = ls := by
  induction ls with
  | nil => rfl
  | cons l ls ih => simp [ih]

/-- Each slice of an encoded header is the field that the layout puts there. -/
theorem fieldSlices_encodeHeader (trunc : Config.TitleTrunc) (h : Header) :
    fieldSlices (encodeHeader trunc h) = fieldBytes trunc h := by
  rw [fieldSlices_eq_splitLengths, encodeHeader_eq_flatten, ← fieldBytes_lengths trunc h, splitLengths_flatten]

/-- The slices of the layout make up the 64 bytes. -/
theorem flatten_fieldSlices {b : List Byte} (hb : b.length = 64) : (fieldSlices b).flatten = b := by
  rw [fieldSlices_eq_splitLengths, List.flatten_splitLengths]
  exact hb.le

/-! ### One field: its value and its bytes -/

/-- A field of `n` bytes holds every value of `8 * n` bits (00_scope.md R13). -/
theorem be_beBytes_toNat {w n : Nat} (hw : w = 8 * n) (x : BitVec w) : be (beBytes n x.toNat) = x.toNat := by
  have hx : x.toNat < 256 ^ n := by
    rw [show 256 = 2 ^ 8 by decide, ← pow_mul, ← hw]
    exact x.isLt
  rw [be_beBytes, Nat.mod_eq_of_lt hx]

theorem beBytes_one_toNat (x : Byte) : beBytes 1 x.toNat = [x] := by
  simp [beBytes]

/-- The bytes of the value that `n` bytes hold are these bytes. -/
theorem beBytes_ofNat_be {w n : Nat} (hw : w = 8 * n) {s : List Byte} (hs : s.length = n) :
    beBytes n (BitVec.ofNat w (be s)).toNat = s := by
  have hbe : be s < 2 ^ w := by
    rw [hw, pow_mul, ← hs]
    exact be_lt s
  rw [BitVec.toNat_ofNat, Nat.mod_eq_of_lt hbe, ← hs, beBytes_be]

/-- The bytes of a field's value are the bytes it was read from. -/
theorem beBytes_fieldAt {b : List Byte} {off n w : Nat} (hw : w = 8 * n) (hb : off + n ≤ b.length) :
    beBytes n (fieldAt b off n w).toNat = slice b off n :=
  beBytes_ofNat_be hw (slice_length b off n hb)

/-! ### Decoding and encoding undo each other (42_header_codec.md R102) -/

/-- A title of 20 bytes is its own normal form (42_header_codec.md R92). -/
theorem normTitle_of_length (trunc : Config.TitleTrunc) {t : List Byte} (ht : t.length = 20) :
    normTitle trunc t = t := by
  simp [normTitle, titleLen, ht]

theorem fieldBytes_decodeHeader (trunc : Config.TitleTrunc) {b : List Byte} (hb : b.length = 64) :
    fieldBytes trunc (decodeHeader b) = fieldSlices b := by
  have hfield {off n w : Nat} (hw : w = 8 * n) (ho : off + n ≤ 64) :
      beBytes n (fieldAt b off n w).toNat = slice b off n := beBytes_fieldAt hw (hb ▸ ho)
  have htitle : normTitle trunc (slice b 0x20 20) = slice b 0x20 20 :=
    normTitle_of_length trunc (slice_length b 0x20 20 (by omega))
  simp (disch := decide) only [fieldBytes, decodeHeader, titleLen, hfield, htitle, fieldSlices]

/-- Encoding what 64 bytes decode to gives these bytes. -/
theorem encodeHeader_decodeHeader (trunc : Config.TitleTrunc) {b : List Byte} (hb : b.length = 64) :
    encodeHeader trunc (decodeHeader b) = b := by
  rw [encodeHeader_eq_flatten, fieldBytes_decodeHeader trunc hb, flatten_fieldSlices hb]

/-- Where the layout puts each field of an encoded header (42_header_codec.md R90). -/
theorem encodeHeader_layout {trunc : Config.TitleTrunc} {h : Header} {b : List Byte} (hb : b = encodeHeader trunc h) :
    be (slice b 0x00 4) = h.cfgFlags.toNat ∧ be (slice b 0x04 4) = h.clockRate.toNat ∧
    be (slice b 0x08 4) = h.bootAddress.toNat ∧ be (slice b 0x0C 4) = h.luVersion.toNat ∧
    be (slice b 0x10 4) = h.crcHi.toNat ∧ be (slice b 0x14 4) = h.crcLo.toNat ∧
    be (slice b 0x18 8) = h.reserved1.toNat ∧ slice b 0x20 20 = normTitle trunc h.title ∧
    be (slice b 0x34 7) = h.reserved2.toNat ∧ slice b 0x3B 1 = [h.category] ∧
    be (slice b 0x3C 2) = h.unique.toNat ∧ slice b 0x3E 1 = [h.destination] ∧ slice b 0x3F 1 = [h.version] := by
  have hslices : fieldSlices b = fieldBytes trunc h := hb ▸ fieldSlices_encodeHeader trunc h
  simp only [fieldSlices, fieldBytes, List.cons.injEq, and_true] at hslices
  simp (disch := decide) only [hslices, be_beBytes_toNat, beBytes_one_toNat, and_self]

/-- Decoding an encoded header gives the header with its title normalised. -/
theorem decodeHeader_encodeHeader (trunc : Config.TitleTrunc) (h : Header) :
    decodeHeader (encodeHeader trunc h) = { h with title := normTitle trunc h.title } := by
  have hbyte (x : Byte) : be [x] = x.toNat := by simp [be]
  have hlayout := encodeHeader_layout (rfl : _ = encodeHeader trunc h)
  simp only [decodeHeader, titleLen, fieldAt, hlayout, hbyte, BitVec.ofNat_toNat, BitVec.setWidth_eq]

/-! ### Through the commands -/

/-- HENCODE of a fully written HREG (42_header_codec.md R97). -/
theorem exec_hencode_written {s : State} {h : Header} (hh : s.hreg.full = some h) :
    ∃ b : Vector Byte 64, b.toList = encodeHeader s.params.titleTrunc h ∧
      exec .hencode s = .next (State.ok { s with hbuf := some b }) := by
  obtain ⟨b, hb, hbl⟩ := toHbuf_of_length (encodeHeader s.params.titleTrunc h) (encodeHeader_length _ h)
  exact ⟨b, hbl, by simp only [exec, execHencode, hh, need_some, hb]⟩

/-- HOVERWRITE puts HBUF where HDECODE reads (43_image_buffer.md R105). -/
theorem bytes_write_hbuf (m : Memory) (b : Vector Byte 64) : (m.write 0 b.toList).bytes 0 hdrLen = b.toList := by
  have hlen : b.toList.length = 64 := b.length_toList
  refine List.ext_getElem? fun k => ?_
  obtain hk | hk := Nat.lt_or_ge k 64
  · rw [bytes_getElem? _ 0 hdrLen k hk, write_byte_stored m 0 b.toList (hlen.symm ▸ hk)]
  · rw [List.getElem?_eq_none (by simpa [hdrLen] using hk), List.getElem?_eq_none (by omega)]

/-- HDECODE of an image whose title region is valid. -/
theorem exec_hdecode_valid {s : State} {m : Memory} (hm : s.img = some m) (hl : 64 ≤ m.len)
    (ht : titleOk s.params (decodeHeader (m.bytes 0 hdrLen)).title = true) :
    exec .hdecode s = .next (State.ok { s with hreg := HReg.ofHeader (decodeHeader (m.bytes 0 hdrLen)) }) := by
  rw [exec_hdecode_long hm hl, if_pos ht]

/-- Settles O32, each direction by one of the two codec identities: `decodeHeader_encodeHeader` and
`encodeHeader_decodeHeader`. -/
theorem headerRoundTrip : Obligations.HeaderRoundTrip := by
  constructor
  · intro s h m hh hm _ hl ht
    obtain ⟨b, hb, hencode⟩ := exec_hencode_written hh
    have hdecoded : decodeHeader ((m.write 0 b.toList).bytes 0 hdrLen) =
        { h with title := normTitle s.params.titleTrunc h.title } := by
      rw [bytes_write_hbuf, hb, decodeHeader_encodeHeader]
    refine ⟨_, _, _, hencode, exec_hoverwrite_long hm rfl hl, exec_hdecode_valid rfl hl ?_, ?_⟩
    · rw [hdecoded]
      exact ht
    · rw [hdecoded]
      rfl
  · intro s m hm hl ht
    have hdecode := exec_hdecode_valid hm hl (by rwa [decodeHeader_bytes])
    obtain ⟨b, hb, hencode⟩ := exec_hencode_written
      (s := State.ok { s with hreg := HReg.ofHeader (decodeHeader (m.bytes 0 hdrLen)) }) rfl
    refine ⟨_, _, b, hdecode, hencode, rfl, ?_⟩
    rw [hb, encodeHeader_decodeHeader _ (bytes_length m 0 hdrLen), bytes_zero]
    rfl

/-- Settles O24, by the layout of the encoded header. -/
theorem hencodeCommandCompletes : Obligations.HencodeCommandCompletes := by
  intro s h hh
  obtain ⟨b, hb, hencode⟩ := exec_hencode_written hh
  exact ⟨b, hencode, encodeHeader_layout hb⟩

/-- Settles O25, the mark by cases on what HENCODE did. -/
theorem encodedHeaderIsSixtyFourBytes : Obligations.EncodedHeaderIsSixtyFourBytes := by
  refine ⟨encodeHeader_length, fun s t hx => ?_⟩
  cases result_of_exec hx with
  | fault _ f hf =>
    cases f with
    | layout => exact absurd rfl hf
    | _ => rfl
  | short _ hi => simp at hi
  | _ => rfl

/-- Settles O28: HRENDER finds HREG written. -/
theorem hrenderCommandCompletes : Obligations.HrenderCommandCompletes := fun _ _ hh => congrArg _ (need_of_some hh)

end Sys2Proof.Machine
end

/-! ## Titles: NormTitle and the recogniser of UTF-8 (42_header_codec.md R92, R93) -/

section
namespace Sys2Proof.Machine

open Sys2Proof.Claims

/-! ### NormTitle (42_header_codec.md R92) -/

theorem isContinuation_iff (b : Byte) : isContinuation b = true ↔ b &&& 0xC0#8 = 0x80#8 := by
  simp [isContinuation]

/-- The cut of CHAR_BOUNDARY is the highest index up to `n` whose byte is no continuation byte, or 0. -/
theorem charBoundaryCut_spec (t : List Byte) (n : Nat) :
    charBoundaryCut t n ≤ n ∧
    (charBoundaryCut t n = 0 ∨ ¬ isContinuation (t.getD (charBoundaryCut t n) 0#8) = true) ∧
    ∀ k, charBoundaryCut t n < k → k ≤ n → isContinuation (t.getD k 0#8) = true := by
  induction n with
  | zero => exact ⟨le_refl 0, Or.inl rfl, fun k hlo hhi => absurd hlo (Nat.not_lt.mpr hhi)⟩
  | succ n ih =>
    rw [charBoundaryCut]
    split
    case isTrue hcont =>
      obtain ⟨hle, hstop, hpassed⟩ := ih
      refine ⟨Nat.le_succ_of_le hle, hstop, fun k hlo hhi => ?_⟩
      obtain rfl | hk := Nat.eq_or_lt_of_le hhi
      · exact hcont
      · exact hpassed k hlo (Nat.le_of_lt_succ hk)
    case isFalse hstop => exact ⟨le_refl _, Or.inr hstop, fun k hlo hhi => absurd hlo (Nat.not_lt.mpr hhi)⟩

theorem normTitle_short (trunc : Config.TitleTrunc) {t : List Byte} (h : t.length ≤ 20) :
    normTitle trunc t = t ++ List.replicate (20 - t.length) 0x00#8 := if_pos h

theorem normTitle_byte {t : List Byte} (h : 20 < t.length) : normTitle .byte t = t.take 20 :=
  if_neg (Nat.not_le.mpr h)

theorem normTitle_charBoundary {t : List Byte} (h : 20 < t.length) : normTitle .charBoundary t =
    t.take (charBoundaryCut t 20) ++ List.replicate (20 - charBoundaryCut t 20) 0x00#8 :=
  if_neg (Nat.not_le.mpr h)

/-- Settles O29, by the length of the title and the setting. -/
theorem normTitleIsTwentyBytes : Obligations.NormTitleIsTwentyBytes := by
  intro t
  refine ⟨fun trunc => normTitle_length trunc t, fun trunc => normTitle_short trunc, normTitle_byte, fun h => ?_⟩
  have hcut := charBoundaryCut_spec t 20
  simp only [isContinuation_iff] at hcut
  obtain ⟨hle, hstop, hpassed⟩ := hcut
  exact ⟨charBoundaryCut t 20, hle, normTitle_charBoundary h, hstop, hpassed⟩

/-! ### The recogniser of UTF-8 (42_header_codec.md R93) -/

theorem inRange_iff {r : Nat × Nat} {b : Byte} : inRange r b = true ↔ r.1 ≤ b.toNat ∧ b.toNat ≤ r.2 := by
  simp [inRange]

/-- The bytes of `q` lie in the ranges, one byte for each. -/
abbrev FillsRanges (ranges : List (Nat × Nat)) (q : List Byte) : Prop :=
  List.Forall₂ (fun r b => inRange r b = true) ranges q

/-- A sequence of R93 is one of the recogniser's rows, filled byte by byte. -/
theorem utf8Sequence_iff {q : List Byte} :
    Utf8Sequence q ↔ ∃ row ∈ utf8Rows, FillsRanges row q := by
  simp only [FillsRanges, inRange_iff]
  rfl

/-- Each row's first range lies below those of the rows after it, so that a byte opens one of them at most. -/
def RowsRise (rows : List (List (Nat × Nat))) : Prop :=
  rows.Pairwise fun row row' => ∀ r ∈ row.head?, ∀ r' ∈ row'.head?, r.2 < r'.1

theorem utf8Rows_rise : RowsRise utf8Rows := by
  unfold RowsRise
  decide

theorem utf8Follow_mem {b : Byte} {rows : List (List (Nat × Nat))} {rest : List (Nat × Nat)}
    (h : utf8Follow b rows = some rest) : ∃ r, r :: rest ∈ rows ∧ inRange r b = true := by
  induction rows using utf8Follow.induct b with
  | case1 => cases h
  | case2 rows ih =>
    obtain ⟨r, hr, hb⟩ := ih h
    exact ⟨r, List.mem_cons_of_mem _ hr, hb⟩
  | case3 r rest' rows hb =>
    rw [utf8Follow, if_pos hb] at h
    cases h
    exact ⟨r, List.mem_cons_self, hb⟩
  | case4 r rest' rows hb ih =>
    rw [utf8Follow, if_neg hb] at h
    obtain ⟨r', hr', hb'⟩ := ih h
    exact ⟨r', List.mem_cons_of_mem _ hr', hb'⟩

/-- Among rows that rise, a byte that opens a row opens no earlier one. -/
theorem utf8Follow_of_mem {b : Byte} {rows : List (List (Nat × Nat))} {r : Nat × Nat} {rest : List (Nat × Nat)}
    (hrise : RowsRise rows) (hmem : r :: rest ∈ rows) (hb : inRange r b = true) : utf8Follow b rows = some rest := by
  induction rows with
  | nil => cases hmem
  | cons row rows ih =>
    obtain ⟨hbelow, hrows⟩ := List.pairwise_cons.mp hrise
    rcases List.mem_cons.mp hmem with rfl | hlater
    · rw [utf8Follow, if_pos hb]
    · cases row with
      | nil => rw [utf8Follow, ih hrows hlater]
      | cons r' rest' =>
        have hlt : r'.2 < r.1 := hbelow _ hlater r' rfl r rfl
        have hnot : ¬ inRange r' b = true := by
          rw [inRange_iff] at hb ⊢
          omega
        rw [utf8Follow, if_neg hnot, ih hrows hlater]

theorem utf8Rows_ne_nil : ∀ row ∈ utf8Rows, row ≠ [] := by decide

/-- The recogniser passes over the bytes that an open sequence asks for: what follows them decides. -/
theorem utf8Go_append {pending : List (Nat × Nat)} {q : List Byte} (h : FillsRanges pending q) (s : List Byte) :
    utf8Go pending (q ++ s) = utf8Valid s := by
  induction h with
  | nil => rfl
  | cons hb _ ih => rw [List.cons_append, utf8Go, hb, Bool.true_and, ih]

/-- What the recogniser accepts begins with the bytes that the open sequence asks for. -/
theorem exists_of_utf8Go {pending : List (Nat × Nat)} {s : List Byte} (h : utf8Go pending s = true) :
    ∃ q rest, s = q ++ rest ∧ FillsRanges pending q ∧ utf8Valid rest = true := by
  induction pending generalizing s with
  | nil => exact ⟨[], s, rfl, .nil, h⟩
  | cons r pending ih =>
    cases s with
    | nil => cases h
    | cons b s =>
      rw [utf8Go, Bool.and_eq_true] at h
      obtain ⟨hb, hs⟩ := h
      obtain ⟨q, rest, rfl, hq, hrest⟩ := ih hs
      exact ⟨b :: q, rest, rfl, .cons hb hq, hrest⟩

/-- The recogniser passes over a sequence. -/
theorem utf8Valid_sequence_append {q : List Byte} (hq : Utf8Sequence q) (s : List Byte) :
    utf8Valid (q ++ s) = utf8Valid s := by
  obtain ⟨row, hrow, hall⟩ := utf8Sequence_iff.mp hq
  cases hall with
  | nil => exact absurd rfl (utf8Rows_ne_nil _ hrow)
  | cons hb hall =>
    rw [List.cons_append, utf8Valid, utf8Go, utf8Follow_of_mem utf8Rows_rise hrow hb]
    exact utf8Go_append hall s

/-- Valid text that is not empty begins with a sequence, and valid text follows it. -/
theorem exists_of_utf8Valid_cons {b : Byte} {s : List Byte} (h : utf8Valid (b :: s) = true) :
    ∃ q rest, s = q ++ rest ∧ Utf8Sequence (b :: q) ∧ utf8Valid rest = true := by
  rw [utf8Valid, utf8Go] at h
  split at h
  case h_1 => cases h
  case h_2 pending hfollow =>
    obtain ⟨r, hrow, hb⟩ := utf8Follow_mem hfollow
    obtain ⟨q, rest, hs, hq, hrest⟩ := exists_of_utf8Go h
    exact ⟨q, rest, hs, utf8Sequence_iff.mpr ⟨_, hrow, .cons hb hq⟩, hrest⟩

theorem utf8Valid_flatten {seqs : List (List Byte)} (h : ∀ q ∈ seqs, Utf8Sequence q) :
    utf8Valid seqs.flatten = true := by
  induction seqs with
  | nil => rfl
  | cons q seqs ih =>
    obtain ⟨hq, hseqs⟩ := List.forall_mem_cons.mp h
    rw [List.flatten_cons, utf8Valid_sequence_append hq, ih hseqs]

/-- The recogniser accepts the concatenations of sequences and nothing else. -/
theorem utf8Valid_iff_sequences (t : List Byte) :
    utf8Valid t = true ↔ ∃ seqs : List (List Byte), t = seqs.flatten ∧ ∀ q ∈ seqs, Utf8Sequence q := by
  constructor
  · intro h
    induction hn : t.length using Nat.strong_induction_on generalizing t with
    | h n ih =>
      cases t with
      | nil => exact ⟨[], rfl, fun q hq => nomatch hq⟩
      | cons b s =>
        obtain ⟨q, rest, rfl, hq, hrest⟩ := exists_of_utf8Valid_cons h
        have hshort : rest.length < n := by simp at hn; omega
        obtain ⟨seqs, rfl, hseqs⟩ := ih _ hshort rest hrest rfl
        exact ⟨(b :: q) :: seqs, rfl, List.forall_mem_cons.mpr ⟨hq, hseqs⟩⟩
  · rintro ⟨seqs, rfl, hseqs⟩
    exact utf8Valid_flatten hseqs

/-- Settles O31: the default title check is the recogniser. -/
theorem utfEightIsSequences : Obligations.UtfEightIsSequences := by
  intro p t hp
  rw [titleOk, hp]
  exact utf8Valid_iff_sequences t

/-! ### No character is cut (42_header_codec.md R92, 90_conflicts.md C5) -/

theorem utf8Valid_append {s t : List Byte} (hs : utf8Valid s = true) (ht : utf8Valid t = true) :
    utf8Valid (s ++ t) = true := by
  obtain ⟨ss, rfl, hss⟩ := (utf8Valid_iff_sequences s).mp hs
  obtain ⟨ts, rfl, hts⟩ := (utf8Valid_iff_sequences t).mp ht
  rw [← List.flatten_append]
  exact utf8Valid_flatten fun q hq => (List.mem_append.mp hq).elim (hss q) (hts q)

/-- The fill of a title is text: zero bytes are characters of one byte. -/
theorem utf8Valid_zeros (n : Nat) : utf8Valid (List.replicate n 0x00#8) = true := by
  induction n with
  | zero => rfl
  | succ n ih => exact ih

/-- Every byte of a row but its first is a continuation byte. -/
theorem utf8Rows_tail : ∀ row ∈ utf8Rows, ∀ r ∈ row.tail, 0x80 ≤ r.1 ∧ r.2 ≤ 0xBF := by decide

theorem isContinuation_of_range : ∀ b : Byte, 0x80 ≤ b.toNat → b.toNat ≤ 0xBF → isContinuation b = true := by decide

theorem isContinuation_of_forall {pending : List (Nat × Nat)} {q : List Byte}
    (hpending : ∀ r ∈ pending, 0x80 ≤ r.1 ∧ r.2 ≤ 0xBF) (h : FillsRanges pending q) :
    ∀ b ∈ q, isContinuation b = true := by
  induction h with
  | nil => exact fun b hb => nomatch hb
  | cons hb _ ih =>
    obtain ⟨⟨hlo, hhi⟩, hrest⟩ := List.forall_mem_cons.mp hpending
    rw [inRange_iff] at hb
    exact List.forall_mem_cons.mpr ⟨isContinuation_of_range _ (by omega) (by omega), ih hrest⟩

/-- Every byte of a sequence but its first is a continuation byte. -/
theorem isContinuation_of_mem_tail {q : List Byte} (hq : Utf8Sequence q) : ∀ b ∈ q.tail, isContinuation b = true := by
  obtain ⟨row, hrow, hall⟩ := utf8Sequence_iff.mp hq
  cases hall with
  | nil => exact fun b hb => nomatch hb
  | cons _ htail => exact isContinuation_of_forall (utf8Rows_tail _ hrow) htail

/-- A cut at a byte that is no continuation byte lies between two sequences. -/
theorem utf8Valid_take_flatten {seqs : List (List Byte)} (h : ∀ q ∈ seqs, Utf8Sequence q) {n : Nat}
    (hn : n = 0 ∨ ¬ isContinuation (seqs.flatten.getD n 0#8) = true) : utf8Valid (seqs.flatten.take n) = true := by
  induction seqs generalizing n with
  | nil =>
    rw [List.flatten_nil, List.take_nil]
    rfl
  | cons q seqs ih =>
    obtain ⟨hq, hseqs⟩ := List.forall_mem_cons.mp h
    rw [List.flatten_cons] at hn ⊢
    obtain hlt | hge := Nat.lt_or_ge n q.length
    · cases n with
      | zero => rfl
      | succ k =>
        have hmem : q[k + 1] ∈ q.tail := List.mem_iff_getElem.mpr ⟨k, by simp; omega, List.getElem_tail _⟩
        rw [List.getD_append _ _ _ _ hlt, List.getD_eq_getElem _ _ hlt] at hn
        exact absurd (isContinuation_of_mem_tail hq _ hmem) (hn.resolve_left (Nat.succ_ne_zero k))
    · rw [List.take_append, List.take_of_length_le hge, utf8Valid_sequence_append hq]
      rw [List.getD_append_right _ _ _ _ hge] at hn
      exact ih hseqs (hn.imp_left fun h0 => by omega)

/-- Settles O30, by the length of the title; a longer one is cut between two sequences. -/
theorem charBoundaryKeepsTextValid : Obligations.CharBoundaryKeepsTextValid := by
  intro t ht
  obtain hl | hl := Nat.lt_or_ge 20 t.length
  · obtain ⟨_, hstop, _⟩ := charBoundaryCut_spec t 20
    obtain ⟨seqs, rfl, hseqs⟩ := (utf8Valid_iff_sequences t).mp ht
    rw [normTitle_charBoundary hl]
    exact utf8Valid_append (utf8Valid_take_flatten hseqs hstop) (utf8Valid_zeros _)
  · rw [normTitle_short _ hl]
    exact utf8Valid_append ht (utf8Valid_zeros _)

end Sys2Proof.Machine
end

/-! ## The cause of each error code (60_exceptions.md R111) -/

section
namespace Sys2Proof.Machine

/-- The commands and the cause that 60_exceptions.md R111 gives an error; 42_header_codec.md R95 gives SliceBoundsError
none. -/
def ErrCause (s : State) (i : Instr) : Err → Prop
  | .insufficientData => (i = .checksum ∨ i = .hrecomp ∨ i = .hdefault) ∧ ∃ m, s.img = some m ∧ m.len < 0x101000
  | .truncatedHeader => i = .hdecode ∧ ∃ m, s.img = some m ∧ m.len < 64
  | .invalidTitleEncoding => i = .hdecode ∧ ∃ m, s.img = some m ∧ 64 ≤ m.len ∧
      titleOk s.params ((List.range 20).map fun k => m.byte (0x20 + k)) = false
  | .sliceBoundsError => False
  | .readError => i = .load ∧ s.drawLoad.1 = .readFail
  | .writeError => i = .store ∧ ∃ sunk, s.drawStore.1 = .writeFail sunk

theorem errCode_injective : Function.Injective Err.code := by
  intro e e'
  cases e <;> cases e' <;> decide

theorem errCode_ne_ok (e : Err) : e.code ≠ statusOk := by
  cases e <;> decide

/-- A command that completes ends well, or with an error that has its cause. -/
theorem Result.status_cause {i : Instr} {s t : State} (h : Result s i t) (hc : t.Clean) :
    t.status = some statusOk ∨ ∃ e, t.status = some e.code ∧ ErrCause s i e := by
  cases h with
  | fault => exact absurd hc (not_clean_fault _ _)
  | storeUnwritten => exact absurd hc (not_clean_fault _ _)
  | refuse => exact absurd hc (not_clean_refuse _)
  | loadPast => exact absurd hc (not_clean_refuse _)
  | short _ hi m hm hl => exact Or.inr ⟨.insufficientData, rfl, hi, m, hm, hl⟩
  | truncated m hm hl => exact Or.inr ⟨.truncatedHeader, rfl, rfl, m, hm, hl⟩
  | badTitle m hm hl ht =>
    rw [decodeHeader_bytes] at ht
    exact Or.inr ⟨.invalidTitleEncoding, rfl, rfl, m, hm, hl, ht⟩
  | loadFail hd => exact Or.inr ⟨.readError, rfl, rfl, hd⟩
  | storeFail sunk hd => exact Or.inr ⟨.writeError, rfl, rfl, sunk, hd⟩
  | _ => exact Or.inl rfl

/-- The code of an error in STATUS shows that error's cause. -/
theorem Result.errCause {i : Instr} {s t : State} (h : Result s i t) (hc : t.Clean) {e : Err}
    (he : t.status = some e.code) : ErrCause s i e := by
  rcases h.status_cause hc with hok | ⟨e', he', hcause⟩
  · exact absurd (Option.some.inj (he.symm.trans hok)) (errCode_ne_ok e)
  · rwa [errCode_injective (Option.some.inj (he.symm.trans he'))]

/-- Settles O45, error by error. -/
theorem errorCodesHaveCauses : Obligations.ErrorCodesHaveCauses := by
  intro i s t code hx hc hs
  have hr := result_of_exec hx
  have hcause (e : Err) (he : code = e.code) : ErrCause s i e := hr.errCause hc (he ▸ hs)
  obtain ⟨_, hs', hle, _⟩ := hr.status_code hc
  obtain rfl := Option.some.inj (hs.symm.trans hs')
  exact ⟨hcause .insufficientData, hcause .truncatedHeader, hcause .invalidTitleEncoding, hcause .readError,
    hcause .writeError, hle, hcause .sliceBoundsError⟩

end Sys2Proof.Machine
end

/-! ## The length of IMG after a command (43_image_buffer.md R110), and the window after HPREPEND -/

section
namespace Sys2Proof.Machine

open Sys2Proof.Claims

/-! ### The length laws (43_image_buffer.md R110) -/

/-- The length of IMG that 43_image_buffer.md R110 gives for a command that completes: `none` where the command leaves IMG
unwritten, or an operand it needs is unwritten. -/
def lengthAfter (s : State) : Instr → Option Nat
  | .load => match s.drawLoad.1 with
    | .bytes src => some src.length
    | .readFail => none
  | .hprepend => s.img.map fun m => m.len + 64
  | .padTo _ => s.arg0.bind fun target => s.img.map fun m => max m.len target
  | .padBy _ => s.arg0.bind fun count => s.img.map fun m => m.len + count
  | .injectAt => s.arg0.bind fun offset => s.dbuf.bind fun data => s.img.map fun m => max m.len (offset + data.length)
  | _ => s.img.map fun m => m.len

/-- A command that completes leaves IMG with the length R110 gives. -/
theorem Result.img_len {i : Instr} {s t : State} (h : Result s i t) (hc : t.Clean) :
    t.img.map (fun m => m.len) = lengthAfter s i := by
  cases h with
  | fault => exact absurd hc (not_clean_fault _ _)
  | storeUnwritten => exact absurd hc (not_clean_fault _ _)
  | refuse => exact absurd hc (not_clean_refuse _)
  | loadPast => exact absurd hc (not_clean_refuse _)
  | short _ hi => rcases hi with rfl | rfl | rfl <;> rfl
  | load _ hd => simp [lengthAfter, hd]
  | loadFail hd => simp [lengthAfter, hd]
  | store | storeFail => exact congrArg (Option.map fun m => m.len) (drawStore_img s)
  | hoverwrite _ hm => simp [lengthAfter, hm]
  | hprepend _ hm => simp [lengthAfter, hm, Nat.add_comm]
  | padTo _ _ ha _ hm => simp [lengthAfter, ha, hm, growTo_len]
  | padToLong _ _ ha _ hm hl => simp [lengthAfter, ha, hm, hl]
  | padBy _ _ ha _ hm => simp [lengthAfter, ha, hm]
  | injectGrow _ ha _ hd _ hm => simp [lengthAfter, ha, hd, hm, growTo_len]
  | injectIn _ ha _ hd _ hm hl => simp [lengthAfter, ha, hd, hm, hl]
  | _ => rfl

theorem le_growTo_len (m : Memory) (target : Nat) (fill : Byte) : m.len ≤ (m.growTo target fill).len := by
  rw [growTo_len]
  exact le_max_left _ _

/-- No command but LOAD makes IMG shorter, whether it completes or not. -/
theorem Result.img_grows {i : Instr} {s t : State} {m : Memory} (h : Result s i t) (hi : i ≠ .load) (hm : s.img = some m) :
    ∃ m', t.img = some m' ∧ m.len ≤ m'.len := by
  have hgrown {m₁ m' : Memory} (hm₁ : s.img = some m₁) (hle : m₁.len ≤ m'.len) :
      ∃ m'', some m' = some m'' ∧ m.len ≤ m''.len := by
    obtain rfl := Option.some.inj (hm₁.symm.trans hm)
    exact ⟨m', rfl, hle⟩
  cases h with
  | load | loadPast | loadFail => exact absurd rfl hi
  | store | storeUnwritten | storeFail => exact ⟨m, (drawStore_img s).trans hm, le_rfl⟩
  | hoverwrite _ hm₁ | injectIn _ _ _ _ _ hm₁ => exact hgrown hm₁ le_rfl
  | hprepend _ hm₁ => exact hgrown hm₁ (Nat.le_add_left _ _)
  | padTo _ _ _ _ hm₁ | injectGrow _ _ _ _ _ hm₁ => exact hgrown hm₁ (le_growTo_len _ _ _)
  | padBy _ _ _ _ hm₁ => exact hgrown hm₁ (Nat.le_add_right _ _)
  | _ => exact ⟨m, hm, le_rfl⟩

/-- Settles O40: the lengths are those of `lengthAfter` at the operands named. -/
theorem imageLengthLaws : Obligations.ImageLengthLaws := by
  intro s t m i hm hx hc
  have hr := result_of_exec hx
  have hlen := hr.img_len hc
  refine ⟨?_, ?_, ?_, ?_, ?_, ?_, fun hi => hr.img_grows hi hm⟩
  · rintro rfl
    simpa [lengthAfter, hm] using hlen
  · rintro rfl
    simpa [lengthAfter, hm] using hlen
  · rintro fill target rfl ha
    simpa [lengthAfter, hm, ha] using hlen
  · rintro fill count rfl ha
    simpa [lengthAfter, hm, ha] using hlen
  · rintro offset data rfl ha hd
    simpa [lengthAfter, hm, ha, hd] using hlen
  · rintro src rfl hd
    simpa [lengthAfter, hd] using hlen

/-! ### The window after bytes are put in front (43_image_buffer.md R106, 70_reset_and_hazards.md R127) -/

/-- Every old word moves up by the number of bytes put in front. -/
theorem prepend_word (m : Memory) (s : List Byte) (a : Nat) : (m.prepend s).word (a + s.length) = m.word a := by
  simp only [Memory.word, Nat.add_right_comm a s.length, prepend_byte_old]

theorem wordsFrom_prepend (m : Memory) (s : List Byte) (a : Nat) :
    wordsFrom (m.prepend s) (a + s.length) = wordsFrom m a := by
  simp only [wordsFrom_eq, Nat.add_right_comm a s.length, prepend_word]

/-- Settles O41: the window at 0x1000 holds the words that stood 64 bytes below. -/
theorem prependMovesWindow : Obligations.PrependMovesWindow := by
  intro tie m b hl
  have hlen : b.toList.length = 64 := b.length_toList
  have hwords : wordsFrom (m.prepend b.toList) 0x1000 = wordsFrom m 0xFC0 := by
    simpa only [hlen] using wordsFrom_prepend m b.toList 0xFC0
  rw [checksumFn_of_long tie (by rw [prepend_len]; omega), hwords]

end Sys2Proof.Machine
end

/-! ## Errors, faults and refusals change nothing else (60_exceptions.md R113, R115, R116) -/

section
namespace Sys2Proof.Machine

/-! ### Errors -/

/-- A command that completes ends well or raises an error: LOAD's is ReadError with IMG unwritten, STORE's is WriteError
with any bytes in the sink, and every other command raises it on the state it began in. -/
theorem Result.ok_or_raise {i : Instr} {s t : State} (h : Result s i t) (hc : t.Clean) :
    t.status = some statusOk ∨ (i ≠ .load ∧ i ≠ .store ∧ ∃ e, t = s.raise e) ∨
    (i = .load ∧ t = State.raise { s.drawLoad.2 with img := none } .readError) ∨
    (i = .store ∧ ∃ sunk, t = State.raise { s.drawStore.2 with snk := sunk } .writeError) := by
  cases h with
  | fault => exact absurd hc (not_clean_fault _ _)
  | storeUnwritten => exact absurd hc (not_clean_fault _ _)
  | refuse => exact absurd hc (not_clean_refuse _)
  | loadPast => exact absurd hc (not_clean_refuse _)
  | short _ hi =>
    have hio : i ≠ .load ∧ i ≠ .store := by rcases hi with rfl | rfl | rfl <;> decide
    exact Or.inr (Or.inl ⟨hio.1, hio.2, .insufficientData, rfl⟩)
  | truncated => exact Or.inr (Or.inl ⟨by decide, by decide, .truncatedHeader, rfl⟩)
  | badTitle => exact Or.inr (Or.inl ⟨by decide, by decide, .invalidTitleEncoding, rfl⟩)
  | loadFail => exact Or.inr (Or.inr (Or.inl ⟨rfl, rfl⟩))
  | storeFail sunk => exact Or.inr (Or.inr (Or.inr ⟨rfl, sunk, rfl⟩))
  | _ => exact Or.inl rfl

/-- Settles O43, by what `Result.ok_or_raise` leaves for a code other than that of a success. -/
theorem errorsWriteStatusOnly : Obligations.ErrorsWriteStatusOnly := by
  intro i s t code hx hc hs hne
  rcases (result_of_exec hx).ok_or_raise hc with hok | ⟨hl, hst, e, rfl⟩ | ⟨rfl, rfl⟩ | ⟨rfl, sunk, rfl⟩
  · exact absurd (Option.some.inj (hs.symm.trans hok)) hne
  · exact ⟨fun _ _ => by rw [← hs]; rfl, fun h => absurd h hl, fun h => absurd h hst⟩
  · exact ⟨fun h => absurd rfl h, fun _ => rfl, nofun⟩
  · exact ⟨fun _ h => absurd rfl h, nofun, fun _ => ⟨sunk, rfl⟩⟩

/-! ### Faults and refusals -/

/-- A command leaves both marks, or only records a fault, or is only refused; a faulting STORE and a refused LOAD have
taken their draw. -/
theorem Result.marks_cases {i : Instr} {s t : State} (h : Result s i t) :
    (t.faults = s.faults ∧ t.refused = s.refused) ∨
    (i ≠ .store ∧ ∃ f, t = s.fault f) ∨ (i = .store ∧ t = s.drawStore.2.fault .unwritten) ∨
    (i ≠ .load ∧ t = s.refuse) ∨ (i = .load ∧ t = s.drawLoad.2.refuse) := by
  cases h with
  | fault _ f _ hi => exact Or.inr (Or.inl ⟨hi, f, rfl⟩)
  | storeUnwritten => exact Or.inr (Or.inr (Or.inl ⟨rfl, rfl⟩))
  | refuse _ hi => exact Or.inr (Or.inr (Or.inr (Or.inl ⟨hi, rfl⟩)))
  | loadPast => exact Or.inr (Or.inr (Or.inr (Or.inr ⟨rfl, rfl⟩)))
  | load | loadFail => exact Or.inl (drawLoad_marks s)
  | store | storeFail => exact Or.inl (drawStore_marks s)
  | _ => exact Or.inl ⟨rfl, rfl⟩

/-- A command that changes FAULTS has recorded a fault, STORE after its draw, and done nothing else. -/
theorem Result.eq_of_faults_ne {i : Instr} {s t : State} (h : Result s i t) (hf : t.faults ≠ s.faults) :
    (i ≠ .store ∧ ∃ f, t = s.fault f) ∨ (i = .store ∧ t = s.drawStore.2.fault .unwritten) := by
  rcases h.marks_cases with ⟨hsame, _⟩ | hfault | hstore | ⟨_, rfl⟩ | ⟨_, rfl⟩
  · exact absurd hsame hf
  · exact Or.inl hfault
  · exact Or.inr hstore
  · exact absurd rfl hf
  · exact absurd (drawLoad_marks s).1 hf

/-- A command that sets REFUSED is refused, LOAD after its draw, and has done nothing else. -/
theorem Result.eq_of_refused {i : Instr} {s t : State} (h : Result s i t) (hs : s.refused = false)
    (ht : t.refused = true) : (i ≠ .load ∧ t = s.refuse) ∨ (i = .load ∧ t = s.drawLoad.2.refuse) := by
  have hne : t.refused ≠ s.refused := by rw [hs, ht]; decide
  rcases h.marks_cases with ⟨_, hsame⟩ | ⟨_, f, rfl⟩ | ⟨_, rfl⟩ | hrefuse | hload
  · exact absurd hsame hne
  · exact absurd rfl hne
  · exact absurd (drawStore_marks s).2 hne
  · exact Or.inl hrefuse
  · exact Or.inr hload

/-- Settles O46, mark by mark. -/
theorem faultsAndRefusalsChangeNothing : Obligations.FaultsAndRefusalsChangeNothing := by
  intro i s t hx
  have hr := result_of_exec hx
  refine ⟨fun hf hi => ?_, fun hf hi => ?_, fun hs ht hi => ?_, fun hs ht hi => ?_⟩
  · obtain ⟨_, f, rfl⟩ := (hr.eq_of_faults_ne hf).resolve_right fun h => hi h.1
    rfl
  · obtain ⟨_, rfl⟩ := (hr.eq_of_faults_ne hf).resolve_left fun h => h.1 hi
    rfl
  · exact ((hr.eq_of_refused hs ht).resolve_right fun h => hi h.1).2
  · exact ((hr.eq_of_refused hs ht).resolve_left fun h => h.1 hi).2

end Sys2Proof.Machine
end

/-! ## The state after reset (70_reset_and_hazards.md R124) -/

section
namespace Sys2Proof.Machine

/-- Settles O51, row by row of the table; `Memory.empty` is the image with no bytes. -/
theorem resetValues : Obligations.ResetValues :=
  ⟨rfl, rfl, rfl, rfl, rfl, rfl, rfl, rfl, rfl, rfl, rfl, rfl⟩

end Sys2Proof.Machine
end
